-- ==== Sys2Proof/Word.lean ====
section
/-! DEFINITION. The widths of the machine's values (spec/00_scope.md R6, R8, R9). Every value is an
unsigned fixed-width number; `BitVec` arithmetic is the spec's "wraparound" arithmetic. -/

namespace Sys2Proof

/-- An 8-bit register, timer or memory byte (R6). -/
abbrev Byte := BitVec 8

/-- A 16-bit instruction word, address register or return address (R6). -/
abbrev Word := BitVec 16

/-- A 4-bit register number `x`, `y`, sprite height `n` or key index (R8). -/
abbrev Nibble := BitVec 4

/-- A 12-bit address field `nnn` (R8). -/
abbrev Addr := BitVec 12

/-- The number of the flag register VF (spec/10_state.md R21). -/
def vF : Nibble := 0xF

end Sys2Proof
end

