-- ==== Sys2Proof/Config.lean ====
section
/-! DEFINITION. What an implementation of the machine fixes: the nine named parameters of
spec/00_scope.md R7, as plain data; and the free values of the model, constants without a body,
which stand for what the host supplies when no schedule of host calls says it. The defaults of R7
stand in Machine/Params.lean. -/

namespace Sys2Proof

/-- `FONT`: the 80 bytes of the built-in font (spec/10_state.md R33). -/
abbrev Font := Vector Byte 80

/-- The keypad vector of one cycle, indices 0x0 to 0xF (spec/10_state.md R31). -/
abbrev Keys := Vector Bool 16

/-- `VF_ALIAS` (spec/41_register_data.md R151). -/
inductive VfAlias where
  | textOrder | sequential | flagLast
deriving DecidableEq, Repr

/-- `LS_I_INCREMENT` (spec/42_index_memory_timer_data.md R184, R185). -/
inductive LsIIncrement where
  | none | xPlus1
deriving DecidableEq, Repr

/-- `KEY_INDEX_OOR` (spec/43_keypad.md R222). -/
inductive KeyIndexOor where
  | refused | lowNibble
deriving DecidableEq, Repr

/-- `FONT_WRITE` (spec/20_memory.md R54). -/
inductive FontWrite where
  | refused | write | ignore
deriving DecidableEq, Repr

/-- `UNDEFINED_WORD_OUTCOME` (spec/30_encoding.md R86). -/
inductive UndefinedWordOutcome where
  | unsupported | refused
deriving DecidableEq, Repr

/-- The values of `OPT_SYS`, `OPT_JPV0` and `OPT_WAITKEY` (spec/45_optional.md R250). -/
inductive OptOutcome where
  | refused | unsupported | standard
deriving DecidableEq, Repr

/-- The parameters of R7, under the spec's names. -/
structure Config where
  font : Font
  vfAlias : VfAlias
  lsIIncrement : LsIIncrement
  keyIndexOor : KeyIndexOor
  fontWrite : FontWrite
  undefinedWord : UndefinedWordOutcome
  optSys : OptOutcome
  optJpV0 : OptOutcome
  optWaitKey : OptOutcome
deriving DecidableEq, Repr

/-- FREE VALUE: the keypad vector the host supplies with the n-th cycle that no schedule fixes
("KEYS is a free 16-bit draw per cycle", spec/93_implementation_defined.md U9).
DESIGN CHOICE (log 5), safe. -/
opaque Config.freeKeys : Nat → Keys

/-- FREE VALUE: the random byte the host supplies with the n-th cycle that no schedule fixes
("RND is a free 8-bit draw per cycle", spec/93_implementation_defined.md U7).
DESIGN CHOICE (log 5), safe. -/
opaque Config.freeRnd : Nat → Byte

/-- FREE VALUE: how many timer ticks the host lets happen before the n-th cycle that no schedule
fixes (spec/60_exceptions.md R285; spec/93_implementation_defined.md U8).
DESIGN CHOICE (log 5), safe. -/
opaque Config.freeTicks : Nat → Nat

end Sys2Proof
end

