-- ==== Sys2Proof/Machine/Params.lean ====
section
/-! DEFINITION. The defaults of the parameters (spec/00_scope.md R7), the default font
(spec/10_state.md R33), and the parameters of the machine `State.reset` gives. -/

namespace Sys2Proof

/-- The glyphs of digits 0 to 7 (R33's table). -/
def fontLow : List Byte :=
  [0xF0, 0x90, 0x90, 0x90, 0xF0] ++ [0x20, 0x60, 0x20, 0x20, 0x70] ++
  [0xF0, 0x10, 0xF0, 0x80, 0xF0] ++ [0xF0, 0x10, 0xF0, 0x10, 0xF0] ++
  [0x90, 0x90, 0xF0, 0x10, 0x10] ++ [0xF0, 0x80, 0xF0, 0x10, 0xF0] ++
  [0xF0, 0x80, 0xF0, 0x90, 0xF0] ++ [0xF0, 0x10, 0x20, 0x40, 0x40]

/-- The glyphs of digits 8 to F (R33's table). -/
def fontHigh : List Byte :=
  [0xF0, 0x90, 0xF0, 0x90, 0xF0] ++ [0xF0, 0x90, 0xF0, 0x10, 0xF0] ++
  [0xF0, 0x90, 0xF0, 0x90, 0x90] ++ [0xE0, 0x90, 0xE0, 0x90, 0xE0] ++
  [0xF0, 0x80, 0x80, 0x80, 0xF0] ++ [0xE0, 0x90, 0x90, 0x90, 0xE0] ++
  [0xF0, 0x80, 0xF0, 0x80, 0xF0] ++ [0xF0, 0x80, 0xF0, 0x80, 0x80]

/-- The default `FONT`. PRESUMED by the spec itself ("from general knowledge, not in source",
R33; spec/92_eei_decisions.md D20): log 2, unsafe for a claim about the glyphs' pixels. -/
def defaultFont : Font := ⟨⟨fontLow ++ fontHigh⟩, rfl⟩

/-- Every parameter at the default of R7. -/
def defaultConfig : Config where
  font := defaultFont
  vfAlias := .textOrder
  lsIIncrement := .none
  keyIndexOor := .refused
  fontWrite := .refused
  undefinedWord := .unsupported
  optSys := .refused
  optJpV0 := .refused
  optWaitKey := .refused

/-- The parameters of the machine `State.reset` gives: R7's defaults, but where the default is a
refusal the effect the spec gives among the parameter's other values. The optional instructions
are `standard`, a key index is the low nibble, and a store into the font is ignored, which keeps
the font immutable (R51). DESIGN CHOICE (log 1), unsafe for a claim about one run of
`State.reset`; the machine of R7's defaults is `State.resetWith defaultConfig`. -/
def resetConfig : Config :=
  { defaultConfig with
    keyIndexOor := .lowNibble
    fontWrite := .ignore
    optSys := .standard
    optJpV0 := .standard
    optWaitKey := .standard }

end Sys2Proof
end

