-- ==== Sys2Proof/Machine/State.lean ====
section
/-! DEFINITION. The state of the machine as plain data (spec/10_state.md R39), the host calls that
drive it (spec/60_exceptions.md R288), the reasons a call can fail or be refused (R270, R276), and
the state `Init()` produces (R37, spec/70_reset_and_hazards.md R310). -/

namespace Sys2Proof.Machine

/-- The framebuffer, `FB[c][r]`: 64 columns of 32 cells, `true` = lit (spec/10_state.md R30). -/
abbrev Framebuffer := Vector (Vector Bool 32) 64

/-- One operation the host may call (spec/60_exceptions.md R288). `Init()` is `State.reset`. -/
inductive HostCall where
  /-- `Cycle(KEYS, RND)`: one engine cycle (spec/40_cycle_and_control_flow.md R100). -/
  | cycle (keys : Keys) (rnd : Byte)
  /-- `Tick()`: one decrement event of the timer clock (spec/60_exceptions.md R284). -/
  | tick
  /-- `LoadImage(bytes)` (spec/70_reset_and_hazards.md R312). -/
  | loadImage (image : List Byte)
  /-- `ReadFramebuffer()`: no side effect (spec/60_exceptions.md R290). -/
  | readFramebuffer
  /-- `SoundActive()`: no side effect (spec/60_exceptions.md R286). -/
  | soundActive
deriving DecidableEq, Repr

/-- How far the boot order of spec/70_reset_and_hazards.md R315 has gone: what decides whether an
image load is at its start (R314). -/
inductive Boot where
  /-- After `Init`: no image loaded, no cycle run. -/
  | fresh
  /-- An image is loaded, no cycle has run. -/
  | loaded
  /-- At least one cycle has been called, whatever its result. -/
  | running
deriving DecidableEq, Repr

/-- The errors of spec/60_exceptions.md R270. A fetch, a decode, an instruction or an image load
answers one; the call that made it then returns it to the host, in a next state that is as it was
before the call but for the result (`takeError`, R274). No step ends in one. -/
inductive Fault where
  /-- A fetch, or an access of Dxyn, Fx33, Fx55 or Fx65, above 0xFFF. It carries nothing (R271; log 15).
  Safe: the spec's own result. -/
  | memoryFault
  /-- 2nnn with 16 frames active (R272). Safe: the spec's own result. -/
  | stackOverflow
  /-- 00EE with no active frame (R273). Safe: the spec's own result. -/
  | stackUnderflow
  /-- An undefined word, or an optional word whose parameter is `unsupported`; it carries the
  fetched word (R275). Safe: the spec's own result. -/
  | unsupportedOpcode (word : Word)
  /-- An image load of more than 3584 bytes (spec/70_reset_and_hazards.md R313).
  Safe: the spec's own result. -/
  | imageTooLarge
deriving DecidableEq, Repr

/-- What a call of Cycle or LoadImage returned: `Ok`, or `Err(e)`
(spec/40_cycle_and_control_flow.md R100; spec/60_exceptions.md R288). -/
inductive CallResult where
  | ok
  | err (e : Fault)
deriving DecidableEq, Repr

/-- The refusals of spec/60_exceptions.md R276, each raised only under the parameter value that
says so, and the rejection by name of an instruction that has no meaning yet. -/
inductive Refusal where
  /-- Raised by `exec` for an instruction not modelled yet: none is left. Safe. -/
  | notModelled (mnemonic : String)
  /-- A Fx33 or Fx55 store that reaches 0x000 to 0x04F under `FONT_WRITE = refused`; it carries
  the first such address. Safe: the machine stops where the spec gives no meaning. -/
  | fontRegionWrite (addr : Nat)
  /-- Ex9E or ExA1 with Vx > 15 under `KEY_INDEX_OOR = refused`. Safe: as above. -/
  | keyIndexOutOfRange (value : Byte)
  /-- An undefined word under `UNDEFINED_WORD_OUTCOME = refused`. Safe: as above. -/
  | undefinedWord (word : Word)
  /-- 0nnn, Bnnn or Fx0A while its parameter is `refused`. Safe: as above. -/
  | undescribedInstruction (word : Word)
  /-- An image load that is the second one or comes after a cycle
  (spec/70_reset_and_hazards.md R314). Safe: as above. -/
  | loadNotAtStart
deriving DecidableEq, Repr

/-- The state. The fields from `v` to `fb` are R39's record; the others are the model's own. -/
structure State where
  /-- The parameters of spec/00_scope.md R7. No step writes it. DESIGN CHOICE (log 1). -/
  config : Config
  /-- V0 to VF (R20). -/
  v : Vector Byte 16
  /-- The index register I (R26). -/
  i : Word
  /-- The program counter (R23). -/
  pc : Word
  /-- The number of active frames, 0 to 16 (R27). DEDUCED (log 10), safe. -/
  sp : Fin 17
  /-- The 16 return-address slots; a pop leaves its slot as it is (R27). -/
  stack : Vector Word 16
  /-- The delay timer (R29). -/
  dt : Byte
  /-- The sound timer (R29). -/
  st : Byte
  /-- Memory: the cells that differ from what initialisation put there, addresses strictly
  rising (R37; spec/20_memory.md R50). DESIGN CHOICE (log 13), safe. -/
  mem : List Host.Cell
  /-- The framebuffer (R30). -/
  fb : Framebuffer
  /-- The keypad input of the current cycle (R31). The model's own field: every cycle of `step`
  sets it before anything reads it. DESIGN CHOICE (log 4). -/
  keys : Keys
  /-- The byte the Random Byte Source gives the current cycle (R32). The model's own field, set
  as `keys` is. DESIGN CHOICE (log 4). -/
  rnd : Byte
  /-- Where the boot order stands (spec/70_reset_and_hazards.md R314). DESIGN CHOICE (log 8). -/
  boot : Boot
  /-- The host's calls still to come, first first. When none is left, the host goes on calling
  cycles with free inputs and free ticks before each. DESIGN CHOICE (log 4). -/
  host : List HostCall
  /-- How many free draws have been made: the counter the free values of Config are applied to.
  DESIGN CHOICE (log 5). -/
  draws : Nat
  /-- What the last call of Cycle or LoadImage returned to the host
  (spec/60_exceptions.md R274, R280). DESIGN CHOICE (log 6). -/
  result : CallResult
  /-- The refusal mark (spec/60_exceptions.md R276): the reason of the refused call, never cleared.
  DESIGN CHOICE (log 7). -/
  refusal : Option Refusal
deriving DecidableEq, Repr

/-- The state `Init()` gives a machine with parameters `c` (R37, R310): font pre-loaded (nothing
of memory differs from its initial contents), PC = 0x200, all other state zero. -/
def State.resetWith (c : Config) : State where
  config := c
  v := Vector.replicate 16 0
  i := 0
  pc := 0x200
  sp := 0
  stack := Vector.replicate 16 0
  dt := 0
  st := 0
  mem := []
  fb := Vector.replicate 64 (Vector.replicate 32 false)
  keys := Vector.replicate 16 false
  rnd := 0
  boot := .fresh
  host := []
  draws := 0
  result := .ok
  refusal := none

/-- The machine right after reset (R37), with the parameters `resetConfig` gives it (log 1). -/
def State.reset : State := State.resetWith resetConfig

end Sys2Proof.Machine
end

