-- ==== Sys2Proof/Machine/Ops.lean ====
section
/-! DEFINITION. The named operations every meaning is built from: raising an error or a refusal,
registers, PC, memory, the call stack, the timers, the framebuffer and the image load. -/

namespace Sys2Proof.Machine

/-! ### Results, errors and refusals -/

/-- The result of a call or of a part of one (spec/40_cycle_and_control_flow.md R100). -/
abbrev Result (α : Type) := Host.Outcome α Fault Refusal

/-- Go on with `f` where the part before it succeeded; otherwise its failure is the result. -/
def andThen {α β : Type} (o : Result α) (f : α → Result β) : Result β :=
  match o with
  | .next a => f a
  | .fault e => .fault e
  | .refused r => .refused r

/-- `raise e` (spec/60_exceptions.md R274): the part of a call that meets an error ends at once, with
none of its writes. What the call then leaves is `takeError`. -/
def raise {α : Type} (e : Fault) : Result α := .fault e

/-- `refuse r` (R276): the model claims nothing from here on. DESIGN CHOICE (log 7), safe. -/
def refuse {α : Type} (r : Refusal) : Result α := .refused r

/-- Taking an exception on this machine (spec/60_exceptions.md R274, R280), in the state `s` the
failing part started from. No state is saved, no mode changes and control goes to no vector: the
error is what the call returns to the host. DESIGN CHOICE (log 6), unsafe for a claim that reads the
state after an error other than UnsupportedOpcode. -/
def State.takeError (s : State) (e : Fault) : State := { s with result := .err e }

/-- The result of a call whose own part, made in state `s`, gave `o` (R105, R274, R281): an error is
taken, and the machine goes on. -/
def settle (s : State) (o : Result State) : Result State :=
  match o with
  | .next t => .next t
  | .fault e => .next (s.takeError e)
  | .refused r => .refused r

/-- The refusal mark is set (R276). -/
def State.setRefusal (s : State) (r : Refusal) : State := { s with refusal := some r }

/-! ### Registers -/

/-- `V[x]` (spec/10_state.md R20). -/
def State.reg (s : State) (x : Nibble) : Byte := s.v[x.toNat]'x.isLt

/-- `V[x] <- b`. -/
def State.setReg (s : State) (x : Nibble) (b : Byte) : State :=
  { s with v := s.v.set x.toNat b x.isLt }

/-- `I <- w`. -/
def State.setI (s : State) (w : Word) : State := { s with i := w }

/-- `PC <- w`. -/
def State.setPc (s : State) (w : Word) : State := { s with pc := w }

/-- `DT <- b`. -/
def State.setDt (s : State) (b : Byte) : State := { s with dt := b }

/-- `ST <- b`. -/
def State.setSt (s : State) (b : Byte) : State := { s with st := b }

/-- The call stack's slots and count. -/
def State.setFrames (s : State) (sp : Fin 17) (stack : Vector Word 16) : State :=
  { s with sp := sp, stack := stack }

/-- The post-execute `PC <- PC + 2` (spec/40_cycle_and_control_flow.md R104). The 16-bit sum is R25's
integer sum at every PC a cycle can execute at. DESIGN CHOICE (log 12), safe for `step`. -/
def State.advance (s : State) : State := s.setPc (s.pc + 2)

/-- A skip: `PC + 4` where the condition holds, else `PC + 2`
(spec/40_cycle_and_control_flow.md R104, R115). -/
def State.skipIf (s : State) (c : Bool) : State := s.setPc (if c then s.pc + 4 else s.pc + 2)

/-- `V[k] <- b, V[k+1] <- ..` for the bytes in turn. -/
def State.setRegs (s : State) (k : Nat) : List Byte → State
  | [] => s
  | b :: bs => (s.setReg (BitVec.ofNat 4 k) b).setRegs (k + 1) bs

/-- `V[0], .., V[x]`. -/
def State.regsTo (s : State) (x : Nibble) : List Byte :=
  (List.range (x.toNat + 1)).map fun k => s.reg (BitVec.ofNat 4 k)

/-! ### Memory as a list of cells -/

/-- The size of the address space (spec/20_memory.md R50). -/
abbrev memSize : Nat := 4096

/-- The size of the font region 0x000 to 0x04F (R51). -/
abbrev fontSize : Nat := 80

/-- What an address reads as that no store or image load has changed: the font, then zeros
(spec/10_state.md R37). DESIGN CHOICE (log 13), safe. -/
def initialByte (font : Font) (a : Nat) : Byte := if h : a < fontSize then font[a] else 0

/-- The byte at `a`. -/
def readCell (font : Font) (m : List Host.Cell) (a : Nat) : Byte :=
  (m.lookup a).getD (initialByte font a)

/-- Put the cell `(a, b)` at its place by address, in the place of any cell there. -/
def insertCell (a : Nat) (b : Byte) : List Host.Cell → List Host.Cell
  | [] => [(a, b)]
  | c :: m =>
    if a < c.1 then (a, b) :: c :: m
    else if a = c.1 then (a, b) :: m
    else c :: insertCell a b m

/-- Remove the cell at `a`. -/
def eraseCell (a : Nat) (m : List Host.Cell) : List Host.Cell := m.filter fun c => c.1 != a

/-- Store `b` at `a`, keeping the canonical form. -/
def writeCell (font : Font) (m : List Host.Cell) (a : Nat) (b : Byte) : List Host.Cell :=
  if b = initialByte font a then eraseCell a m else insertCell a b m

/-- The canonical form: addresses strictly rising and inside the address space, and no cell equal
to what an unlisted address reads as. -/
def memWf (font : Font) (m : List Host.Cell) : Bool :=
  decide (m.Pairwise fun c d => c.1 < d.1) &&
    m.all fun c => decide (c.1 < memSize) && c.2 != initialByte font c.1

/-- The canonical form holds of the state's memory. -/
def State.memWf (s : State) : Bool := Machine.memWf s.config.font s.mem

/-- `MEM[a]`, before any bounds check. -/
def State.byteAt (s : State) (a : Nat) : Byte := readCell s.config.font s.mem a

/-- `MEM[a] <- b`, before any check. -/
def State.setByte (s : State) (a : Nat) (b : Byte) : State :=
  { s with mem := writeCell s.config.font s.mem a b }

/-! ### Memory access (spec/20_memory.md R53 to R55) -/

/-- `MemRead(a, 1)` (R53). -/
def memRead (s : State) (a : Nat) : Result Byte :=
  if a > 0xFFF then raise .memoryFault else .next (s.byteAt a)

/-- `MemRead(a, 2)`: big-endian (R53, R56). -/
def memRead2 (s : State) (a : Nat) : Result Word :=
  if a + 1 > 0xFFF then raise .memoryFault else .next (s.byteAt a ++ s.byteAt (a + 1))

/-- Whether a store at `a` changes the byte there: not in the font region unless
`FONT_WRITE = write` (R54). -/
def State.storable (s : State) (a : Nat) : Bool :=
  decide (0x04F < a) || s.config.fontWrite == .write

/-- What `MemWrite(a, 1, b)` does to the state once its checks have passed (R54). -/
def State.putByte (s : State) (a : Nat) (b : Byte) : State :=
  if s.storable a then s.setByte a b else s

/-- `MemWrite(a, 1, b)` (R54). -/
def memWrite (s : State) (a : Nat) (b : Byte) : Result State :=
  if a > 0xFFF then raise .memoryFault
  else if a ≤ 0x04F ∧ s.config.fontWrite = .refused then refuse (.fontRegionWrite a)
  else .next (s.putByte a b)

/-- Successive one-byte writes in increasing address order, every check already passed. -/
def State.putBytes (s : State) (a : Nat) : List Byte → State
  | [] => s
  | b :: bs => (s.putByte a b).putBytes (a + 1) bs

/-- A block store (Fx33, Fx55): every address is checked before the first write
(R60; order of spec/60_exceptions.md R278), then the bytes are written in increasing order. The
refusal carries I, the first address in the font region. DEDUCED (log 11), safe. -/
def storeBlock (s : State) (a : Nat) (bs : List Byte) : Result State :=
  if a + bs.length > memSize then raise .memoryFault
  else if a ≤ 0x04F ∧ s.config.fontWrite = .refused then refuse (.fontRegionWrite a)
  else .next (s.putBytes a bs)

/-- A block read (Fx65, Dxyn): every address is checked before any is read (R60). A block of no
bytes reads nothing and never faults (spec/44_draw.md R234). -/
def loadBlock (s : State) (a n : Nat) : Result (List Byte) :=
  if 0 < n ∧ a + n > memSize then raise .memoryFault
  else .next ((List.range n).map fun k => s.byteAt (a + k))

/-- The fetch (spec/40_cycle_and_control_flow.md R101). -/
def fetchWord (s : State) : Result Word := memRead2 s s.pc.toNat

/-! ### Call stack (spec/10_state.md R27) -/

/-- `Push(w)`. -/
def push (s : State) (w : Word) : Result State :=
  if h : s.sp.val < 16 then
    .next (s.setFrames ⟨s.sp.val + 1, by omega⟩ (s.stack.set s.sp.val w))
  else raise .stackOverflow

/-- `Pop()`: the popped address and the state after. -/
def pop (s : State) : Result (Word × State) :=
  if h : 0 < s.sp.val then
    .next (s.stack[s.sp.val - 1]'(by omega), s.setFrames ⟨s.sp.val - 1, by omega⟩ s.stack)
  else raise .stackUnderflow

/-! ### Timers (spec/60_exceptions.md R284 to R286) -/

/-- One decrement toward zero. -/
def countDown (b : Byte) : Byte := if b ≠ 0 then b - 1 else 0

/-- `Tick()` (R284). -/
def State.tick (s : State) : State := (s.setDt (countDown s.dt)).setSt (countDown s.st)

/-- A timer after `k` ticks. -/
def countDownBy (k : Nat) (b : Byte) : Byte := BitVec.ofNat 8 (b.toNat - k)

/-- `k` ticks at once, in a form that does not have to know `k` to say what the rest of the state
is. It equals `k` times `tick` (Laws/Ops.lean, `ticks_succ`). -/
def State.ticks (s : State) (k : Nat) : State :=
  (s.setDt (countDownBy k s.dt)).setSt (countDownBy k s.st)

/-- `SoundActive()` (R286). -/
def State.soundActive (s : State) : Bool := s.st != 0

/-! ### Framebuffer (spec/10_state.md R30) -/

/-- `FB[c][r]`. -/
def pixel (fb : Framebuffer) (c : Fin 64) (r : Fin 32) : Bool := fb[c][r]

/-- `FB[c][r] <- b`. -/
def setPixel (fb : Framebuffer) (c : Fin 64) (r : Fin 32) (b : Bool) : Framebuffer :=
  fb.set c (fb[c].set r b)

/-- The framebuffer with every cell unlit. -/
def blank : Framebuffer := Vector.replicate 64 (Vector.replicate 32 false)

/-- The framebuffer is replaced whole. -/
def State.setFb (s : State) (fb : Framebuffer) : State := { s with fb := fb }

/-- `ReadFramebuffer()` (spec/60_exceptions.md R290). -/
def State.readFramebuffer (s : State) : Framebuffer := s.fb

/-! ### Host calls (spec/60_exceptions.md R288) -/

/-- A cycle begins: its inputs reach the machine (R289, R292), the machine is past its boot, and the
result is `Ok` unless an error is taken. -/
def State.beginCycle (s : State) (keys : Keys) (rnd : Byte) : State :=
  { s with keys := keys, rnd := rnd, boot := .running, result := .ok }

/-- The image's bytes are in memory from 0x200 on. -/
def State.setBytes (s : State) (a : Nat) : List Byte → State
  | [] => s
  | b :: bs => (s.setByte a b).setBytes (a + 1) bs

/-- The one load of a run is made, and returns `Ok`. -/
def State.setLoaded (s : State) : State := { s with boot := .loaded, result := .ok }

/-- The largest image, 4096 − 0x200 bytes (spec/70_reset_and_hazards.md R312). -/
abbrev maxImage : Nat := 3584

/-- `LoadImage(bytes)` (spec/70_reset_and_hazards.md R312 to R314). A load that is not at the
start is refused whatever its length. DESIGN CHOICE (log 8), safe. -/
def loadImage (s : State) (bytes : List Byte) : Result State :=
  if s.boot ≠ .fresh then refuse .loadNotAtStart
  else if bytes.length > maxImage then raise .imageTooLarge
  else .next (s.setBytes 0x200 bytes).setLoaded

/-- The host's next call, and the state with that call taken off the schedule. With no call left
the host calls a cycle with free inputs, after a free number of ticks, which count whatever the
cycle's result (R285, R289, R292). DESIGN CHOICE (log 4, log 5). -/
def takeCall (s : State) : HostCall × State :=
  match s.host with
  | [] =>
    (.cycle (Config.freeKeys s.draws) (Config.freeRnd s.draws),
      { s.ticks (Config.freeTicks s.draws) with draws := s.draws + 1 })
  | c :: rest => (c, { s with host := rest })

end Sys2Proof.Machine
end

