-- ==== Sys2Proof/Machine/Operands.lean ====
section
/-! DEFINITION. Operand forms: the key index of a register value, the lowest pressed key, the
decimal digits of a byte, the font address of a digit, the bits of a sprite. -/

namespace Sys2Proof.Machine

/-- `nnn` as it is written to PC or I (spec/30_encoding.md R82). -/
def addrWord (nnn : Addr) : Word := nnn.setWidth 16

/-- A register's value as an addend of PC or I. -/
def byteWord (b : Byte) : Word := b.setWidth 16

/-- `KeyIndex(a)` (spec/43_keypad.md R222). -/
def keyIndex (s : State) (a : Byte) : Result Nibble :=
  if a.toNat ≤ 15 then .next (a.setWidth 4)
  else
    match s.config.keyIndexOor with
    | .refused => refuse (.keyIndexOutOfRange a)
    | .lowNibble => .next (a.setWidth 4)

/-- `KEYS[k]` (spec/10_state.md R31). -/
def State.keyDown (s : State) (k : Nibble) : Bool := s.keys[k.toNat]'k.isLt

/-- `min { k | KEYS[k] = 1 }`, where some key is pressed (spec/45_optional.md R253). -/
def State.lowestKey (s : State) : Option Nibble :=
  ((List.range 16).map (BitVec.ofNat 4)).find? s.keyDown

/-- Hundreds, tens and ones (spec/42_index_memory_timer_data.md R183). -/
def bcdDigits (a : Byte) : List Byte :=
  [BitVec.ofNat 8 (a.toNat / 100), BitVec.ofNat 8 (a.toNat / 10 % 10), BitVec.ofNat 8 (a.toNat % 10)]

/-- The address of the glyph of a value's low nibble (spec/42_index_memory_timer_data.md R182). -/
def glyphAddr (a : Byte) : Word := BitVec.ofNat 16 (5 * (a.toNat % 16))

/-- The column offsets of a sprite row's 1-bits, the most significant bit first
(spec/44_draw.md R231). -/
def rowBits (b : Byte) : List Nat := (List.range 8).filter fun c => b.getLsbD (7 - c)

/-- The offsets (column, row) of a sprite's 1-bits, rows from `r` on (spec/44_draw.md R230). -/
def spriteBits (r : Nat) : List Byte → List (Nat × Nat)
  | [] => []
  | b :: bs => (rowBits b).map (fun c => (c, r)) ++ spriteBits (r + 1) bs

/-- The column `(a + c) mod 64` of a 1-bit (spec/44_draw.md R232). -/
def wrapColumn (a c : Nat) : Fin 64 := ⟨(a + c) % 64, Nat.mod_lt _ (by decide)⟩

/-- The row `(b + r) mod 32` of a 1-bit (spec/44_draw.md R232). -/
def wrapRow (b r : Nat) : Fin 32 := ⟨(b + r) % 32, Nat.mod_lt _ (by decide)⟩

end Sys2Proof.Machine
end

