-- ==== Sys2Proof/Machine/Flags.lean ====
section
/-! DEFINITION. The flag values VF receives (spec/10_state.md R34) and the order of an
instruction's two register writes (spec/41_register_data.md R151). -/

namespace Sys2Proof.Machine

/-- A flag is the byte 1 or 0. -/
def flagByte (c : Bool) : Byte := if c then 1 else 0

/-- The carry of `a + b` (R146). -/
def carryFlag (a b : Byte) : Byte := flagByte (decide (a.toNat + b.toNat > 255))

/-- 1 iff `a > b`, strictly (R147; with the operands exchanged, R149). -/
def greaterFlag (a b : Byte) : Byte := flagByte (decide (a.toNat > b.toNat))

/-- Bit 0, which a shift right moves out (R148). -/
def lowBitFlag (a : Byte) : Byte := flagByte (a.getLsbD 0)

/-- Bit 7, which a shift left moves out (R150). -/
def highBitFlag (a : Byte) : Byte := flagByte (a.getLsbD 7)

/-- The writes of 8xy4, in the source's order: the result, then the flag. The sum is computed
once, so the three settings of `VF_ALIAS` agree (R151). -/
def State.resultThenFlag (s : State) (x y : Nibble) (result flag : Byte → Byte → Byte) : State :=
  (s.setReg x (result (s.reg x) (s.reg y))).setReg vF (flag (s.reg x) (s.reg y))

/-- The writes of 8xy5, 8xy6, 8xy7 and 8xyE, whose flag the source writes first, under each
setting of `VF_ALIAS` (R151). -/
def State.flagThenResult (s : State) (x y : Nibble) (result flag : Byte → Byte → Byte) : State :=
  let a := s.reg x
  let b := s.reg y
  let flagged := s.setReg vF (flag a b)
  match s.config.vfAlias with
  | .textOrder => flagged.setReg x (result a b)
  | .sequential => flagged.setReg x (result (flagged.reg x) (flagged.reg y))
  | .flagLast => (s.setReg x (result a b)).setReg vF (flag a b)

end Sys2Proof.Machine
end

