-- ==== Sys2Proof/Machine/Control.lean ====
section
/-! DEFINITION. The control-flow instructions (spec/40_cycle_and_control_flow.md R107 to R114). -/

namespace Sys2Proof.Machine

/-- 00E0 (R107). -/
def execCls (s : State) : Result State := .next (s.setFb blank).advance

/-- 00EE (R108): no post-increment. -/
def execRet (s : State) : Result State := andThen (pop s) fun p => .next (p.2.setPc p.1)

/-- 1nnn (R109): no post-increment. -/
def execJp (nnn : Addr) (s : State) : Result State := .next (s.setPc (addrWord nnn))

/-- 2nnn (R110): the return address is PC + 2. -/
def execCall (nnn : Addr) (s : State) : Result State :=
  andThen (push s (s.pc + 2)) fun t => .next (t.setPc (addrWord nnn))

/-- 3xkk (R111). -/
def execSeImm (x : Nibble) (kk : Byte) (s : State) : Result State :=
  .next (s.skipIf (s.reg x == kk))

/-- 4xkk (R112). -/
def execSneImm (x : Nibble) (kk : Byte) (s : State) : Result State :=
  .next (s.skipIf (s.reg x != kk))

/-- 5xy0 (R113). -/
def execSeReg (x y : Nibble) (s : State) : Result State :=
  .next (s.skipIf (s.reg x == s.reg y))

/-- 9xy0 (R114). -/
def execSneReg (x y : Nibble) (s : State) : Result State :=
  .next (s.skipIf (s.reg x != s.reg y))

end Sys2Proof.Machine
end

