-- ==== Sys2Proof/Machine/Draw.lean ====
section
/-! DEFINITION. The draw instruction (spec/44_draw.md R230 to R234). -/

namespace Sys2Proof.Machine

/-- One 1-bit of the sprite, at offsets `p`, with the sprite at column `a` and row `b`: its cell is
inverted, and a cell that was lit is a collision (R230). -/
def plot (a b : Nat) (acc : Framebuffer × Bool) (p : Nat × Nat) : Framebuffer × Bool :=
  let lit := pixel acc.1 (wrapColumn a p.1) (wrapRow b p.2)
  (setPixel acc.1 (wrapColumn a p.1) (wrapRow b p.2) (!lit), acc.2 || lit)

/-- All the 1-bits of a sprite, in the source's order: the framebuffer after, and whether any cell
went from lit to unlit (R230, R232). -/
def blit (a b : Nat) (fb : Framebuffer) (sprite : List Byte) : Framebuffer × Bool :=
  (spriteBits 0 sprite).foldl (plot a b) (fb, false)

/-- Dxyn (R230). -/
def execDrw (x y n : Nibble) (s : State) : Result State :=
  andThen (loadBlock s s.i.toNat n.toNat) fun sprite =>
    let drawn := blit (s.reg x).toNat (s.reg y).toNat s.fb sprite
    .next ((s.setFb drawn.1).setReg vF (flagByte drawn.2)).advance

end Sys2Proof.Machine
end

