-- ==== Sys2Proof/Machine/IndexMem.lean ====
section
/-! DEFINITION. The index, memory, random and timer instructions
(spec/42_index_memory_timer_data.md R180 to R189). -/

namespace Sys2Proof.Machine

/-- Annn (R180). -/
def execLdI (nnn : Addr) (s : State) : Result State := .next (s.setI (addrWord nnn)).advance

/-- Fx1E (R181): 16-bit wrap, no flag. -/
def execAddI (x : Nibble) (s : State) : Result State :=
  .next (s.setI (s.i + byteWord (s.reg x))).advance

/-- Fx29 (R182). -/
def execLdF (x : Nibble) (s : State) : Result State :=
  .next (s.setI (glyphAddr (s.reg x))).advance

/-- Fx33 (R183). -/
def execLdB (x : Nibble) (s : State) : Result State :=
  andThen (storeBlock s s.i.toNat (bcdDigits (s.reg x))) fun t => .next t.advance

/-- The change of I after a block transfer of V0 to Vx, under `LS_I_INCREMENT` (R184, R185). -/
def State.bumpI (s : State) (x : Nibble) : State :=
  match s.config.lsIIncrement with
  | .none => s
  | .xPlus1 => s.setI (s.i + BitVec.ofNat 16 (x.toNat + 1))

/-- Fx55 (R184). -/
def execDump (x : Nibble) (s : State) : Result State :=
  andThen (storeBlock s s.i.toNat (s.regsTo x)) fun t => .next (t.bumpI x).advance

/-- Fx65 (R185). -/
def execLoad (x : Nibble) (s : State) : Result State :=
  andThen (loadBlock s s.i.toNat (x.toNat + 1)) fun bs =>
    .next ((s.setRegs 0 bs).bumpI x).advance

/-- Cxkk (R186). -/
def execRnd (x : Nibble) (kk : Byte) (s : State) : Result State :=
  .next (s.setReg x (s.rnd &&& kk)).advance

/-- Fx07 (R187). -/
def execLdVxDt (x : Nibble) (s : State) : Result State := .next (s.setReg x s.dt).advance

/-- Fx15 (R188). -/
def execLdDtVx (x : Nibble) (s : State) : Result State := .next (s.setDt (s.reg x)).advance

/-- Fx18 (R189). -/
def execLdStVx (x : Nibble) (s : State) : Result State := .next (s.setSt (s.reg x)).advance

end Sys2Proof.Machine
end

