-- ==== Sys2Proof/Machine/Keypad.lean ====
section
/-! DEFINITION. The keypad skips (spec/43_keypad.md R220 to R222). -/

namespace Sys2Proof.Machine

/-- Ex9E (R220). -/
def execSkp (x : Nibble) (s : State) : Result State :=
  andThen (keyIndex s (s.reg x)) fun k => .next (s.skipIf (s.keyDown k))

/-- ExA1 (R221). -/
def execSknp (x : Nibble) (s : State) : Result State :=
  andThen (keyIndex s (s.reg x)) fun k => .next (s.skipIf !(s.keyDown k))

end Sys2Proof.Machine
end

