-- ==== Sys2Proof/Syntax.lean ====
section
/-! DEFINITION. The instruction set: one constructor per row of spec/opcode_table.json, in the
order of spec/30_encoding.md R84. Register fields are `Nibble`, so every encodable operand is a
term; the ignored `y` of the two shifts (R89) is kept, so that no bit of a word is dropped. -/

namespace Sys2Proof

inductive Instr where
  /-- `00E0` CLS (R107). -/
  | cls
  /-- `00EE` RET (R108). -/
  | ret
  /-- `1nnn` JP nnn (R109). -/
  | jp (nnn : Addr)
  /-- `2nnn` CALL nnn (R110). -/
  | call (nnn : Addr)
  /-- `3xkk` SE Vx, kk (R111). -/
  | seImm (x : Nibble) (kk : Byte)
  /-- `4xkk` SNE Vx, kk (R112). -/
  | sneImm (x : Nibble) (kk : Byte)
  /-- `5xy0` SE Vx, Vy (R113). -/
  | seReg (x y : Nibble)
  /-- `9xy0` SNE Vx, Vy (R114). -/
  | sneReg (x y : Nibble)
  /-- `6xkk` LD Vx, kk (R140). -/
  | ldImm (x : Nibble) (kk : Byte)
  /-- `7xkk` ADD Vx, kk (R141). -/
  | addImm (x : Nibble) (kk : Byte)
  /-- `8xy0` LD Vx, Vy (R142). -/
  | ldReg (x y : Nibble)
  /-- `8xy1` OR Vx, Vy (R143). -/
  | orReg (x y : Nibble)
  /-- `8xy2` AND Vx, Vy (R144). -/
  | andReg (x y : Nibble)
  /-- `8xy3` XOR Vx, Vy (R145). -/
  | xorReg (x y : Nibble)
  /-- `8xy4` ADD Vx, Vy (R146). -/
  | addReg (x y : Nibble)
  /-- `8xy5` SUB Vx, Vy (R147). -/
  | sub (x y : Nibble)
  /-- `8xy6` SHR Vx (R148); `y` is ignored (R89). -/
  | shr (x y : Nibble)
  /-- `8xy7` SUBN Vx, Vy (R149). -/
  | subn (x y : Nibble)
  /-- `8xyE` SHL Vx (R150); `y` is ignored (R89). -/
  | shl (x y : Nibble)
  /-- `Annn` LD I, nnn (R180). -/
  | ldI (nnn : Addr)
  /-- `Fx1E` ADD I, Vx (R181). -/
  | addI (x : Nibble)
  /-- `Fx29` LD F, Vx (R182). -/
  | ldF (x : Nibble)
  /-- `Fx33` LD B, Vx (R183). -/
  | ldB (x : Nibble)
  /-- `Fx55` LD [I], Vx (R184). -/
  | dump (x : Nibble)
  /-- `Fx65` LD Vx, [I] (R185). -/
  | load (x : Nibble)
  /-- `Cxkk` RND Vx, kk (R186). -/
  | rnd (x : Nibble) (kk : Byte)
  /-- `Fx07` LD Vx, DT (R187). -/
  | ldVxDt (x : Nibble)
  /-- `Fx15` LD DT, Vx (R188). -/
  | ldDtVx (x : Nibble)
  /-- `Fx18` LD ST, Vx (R189). -/
  | ldStVx (x : Nibble)
  /-- `Ex9E` SKP Vx (R220). -/
  | skp (x : Nibble)
  /-- `ExA1` SKNP Vx (R221). -/
  | sknp (x : Nibble)
  /-- `Dxyn` DRW Vx, Vy, n (R230). -/
  | drw (x y n : Nibble)
  /-- `0nnn` SYS nnn, for any `nnn` but `0E0` and `0EE` (R251). -/
  | sys (nnn : Addr)
  /-- `Bnnn` JP V0, nnn (R252). -/
  | jpV0 (nnn : Addr)
  /-- `Fx0A` LD Vx, K (R253). -/
  | ldVxK (x : Nibble)
deriving DecidableEq, Repr

end Sys2Proof
end

