-- ==== Sys2Proof/WellFormed.lean ====
section
/-! DEFINITION. Which terms of `Instr` some instruction word spells. The operand types already
bound every field; the one further condition is that `0nnn` is not `00E0` or `00EE`
(spec/30_encoding.md R84 row 33). -/

namespace Sys2Proof

/-- The instruction is one that a word of R84's map spells. -/
def Instr.wellFormed : Instr → Bool
  | .sys nnn => nnn != 0x0E0 && nnn != 0x0EE
  | .cls => true
  | .ret => true
  | .jp _ => true
  | .call _ => true
  | .seImm _ _ => true
  | .sneImm _ _ => true
  | .seReg _ _ => true
  | .sneReg _ _ => true
  | .ldImm _ _ => true
  | .addImm _ _ => true
  | .ldReg _ _ => true
  | .orReg _ _ => true
  | .andReg _ _ => true
  | .xorReg _ _ => true
  | .addReg _ _ => true
  | .sub _ _ => true
  | .shr _ _ => true
  | .subn _ _ => true
  | .shl _ _ => true
  | .ldI _ => true
  | .addI _ => true
  | .ldF _ => true
  | .ldB _ => true
  | .dump _ => true
  | .load _ => true
  | .rnd _ _ => true
  | .ldVxDt _ => true
  | .ldDtVx _ => true
  | .ldStVx _ => true
  | .skp _ => true
  | .sknp _ => true
  | .drw _ _ _ => true
  | .jpV0 _ => true
  | .ldVxK _ => true

end Sys2Proof
end

