-- ==== Sys2Proof/Decode.lean ====
section
/-! DEFINITION. The decoder, the encoder and the opcode map (spec/30_encoding.md R80 to R91). Every
pattern but that of Dxyn is general knowledge by the spec's own mark: PRESUMED (log 3), unsafe for
hardware with another assignment. -/

namespace Sys2Proof

/-! ### Fields of a word (R8, R81) -/

/-- The opcode class, bits 15 to 12. -/
def opClass (w : Word) : Nibble := w.extractLsb' 12 4

/-- `x`, bits 11 to 8. -/
def fieldX (w : Word) : Nibble := w.extractLsb' 8 4

/-- `y`, bits 7 to 4. -/
def fieldY (w : Word) : Nibble := w.extractLsb' 4 4

/-- `n`, bits 3 to 0. -/
def fieldN (w : Word) : Nibble := w.extractLsb' 0 4

/-- `kk`, bits 7 to 0. -/
def fieldKK (w : Word) : Byte := w.extractLsb' 0 8

/-- `nnn`, bits 11 to 0. -/
def fieldNNN (w : Word) : Addr := w.extractLsb' 0 12

/-! ### Decoding -/

/-- Why no instruction is read. -/
inductive Reject where
  /-- The word matches no row of the map (R86). -/
  | undefinedWord (w : Word)
  /-- Fewer than two bytes (R80). -/
  | truncated
deriving DecidableEq, Repr

/-- Class 0 selects on the low 12 bits (R85). -/
def decodeClass0 (w : Word) : Instr :=
  if fieldNNN w = 0x0E0 then .cls
  else if fieldNNN w = 0x0EE then .ret
  else .sys (fieldNNN w)

/-- Class 8 selects on bits 3 to 0 (R85). -/
def decodeClass8 (w : Word) : Except Reject Instr :=
  match (fieldN w).toNat with
  | 0x0 => .ok (.ldReg (fieldX w) (fieldY w))
  | 0x1 => .ok (.orReg (fieldX w) (fieldY w))
  | 0x2 => .ok (.andReg (fieldX w) (fieldY w))
  | 0x3 => .ok (.xorReg (fieldX w) (fieldY w))
  | 0x4 => .ok (.addReg (fieldX w) (fieldY w))
  | 0x5 => .ok (.sub (fieldX w) (fieldY w))
  | 0x6 => .ok (.shr (fieldX w) (fieldY w))
  | 0x7 => .ok (.subn (fieldX w) (fieldY w))
  | 0xE => .ok (.shl (fieldX w) (fieldY w))
  | _ => .error (.undefinedWord w)

/-- Class E selects on bits 7 to 0 (R85). -/
def decodeClassE (w : Word) : Except Reject Instr :=
  match (fieldKK w).toNat with
  | 0x9E => .ok (.skp (fieldX w))
  | 0xA1 => .ok (.sknp (fieldX w))
  | _ => .error (.undefinedWord w)

/-- Class F selects on bits 7 to 0 (R85). -/
def decodeClassF (w : Word) : Except Reject Instr :=
  match (fieldKK w).toNat with
  | 0x07 => .ok (.ldVxDt (fieldX w))
  | 0x0A => .ok (.ldVxK (fieldX w))
  | 0x15 => .ok (.ldDtVx (fieldX w))
  | 0x18 => .ok (.ldStVx (fieldX w))
  | 0x1E => .ok (.addI (fieldX w))
  | 0x29 => .ok (.ldF (fieldX w))
  | 0x33 => .ok (.ldB (fieldX w))
  | 0x55 => .ok (.dump (fieldX w))
  | 0x65 => .ok (.load (fieldX w))
  | _ => .error (.undefinedWord w)

/-- The instruction a word spells: classify by the top nibble, then by the class's second
selector (R83, R85). Decoding is strict: every fixed bit must match. -/
def decode (w : Word) : Except Reject Instr :=
  match (opClass w).toNat with
  | 0x0 => .ok (decodeClass0 w)
  | 0x1 => .ok (.jp (fieldNNN w))
  | 0x2 => .ok (.call (fieldNNN w))
  | 0x3 => .ok (.seImm (fieldX w) (fieldKK w))
  | 0x4 => .ok (.sneImm (fieldX w) (fieldKK w))
  | 0x5 => if fieldN w = 0 then .ok (.seReg (fieldX w) (fieldY w)) else .error (.undefinedWord w)
  | 0x6 => .ok (.ldImm (fieldX w) (fieldKK w))
  | 0x7 => .ok (.addImm (fieldX w) (fieldKK w))
  | 0x8 => decodeClass8 w
  | 0x9 => if fieldN w = 0 then .ok (.sneReg (fieldX w) (fieldY w)) else .error (.undefinedWord w)
  | 0xA => .ok (.ldI (fieldNNN w))
  | 0xB => .ok (.jpV0 (fieldNNN w))
  | 0xC => .ok (.rnd (fieldX w) (fieldKK w))
  | 0xD => .ok (.drw (fieldX w) (fieldY w) (fieldN w))
  | 0xE => decodeClassE w
  | _ => decodeClassF w

/-- The word of two bytes, the one at the lower address in bits 15 to 8 (R80). -/
def wordOfBytes (hi lo : Byte) : Word := hi ++ lo

/-- The instruction at the head of a list of bytes, and the bytes after it (R80, R91). -/
def decodeBytes : List Byte → Except Reject (Instr × List Byte)
  | hi :: lo :: rest =>
    match decode (wordOfBytes hi lo) with
    | .ok ins => .ok (ins, rest)
    | .error e => .error e
  | [_] => .error .truncated
  | [] => .error .truncated

/-! ### Encoding -/

/-- Format F-ADDR (R81). -/
def encAddr (c : Nibble) (nnn : Addr) : Word := c ++ nnn

/-- Format F-RK. -/
def encRK (c x : Nibble) (kk : Byte) : Word := (c ++ x) ++ kk

/-- Formats F-RRF and F-RRN. -/
def encRRN (c x y n : Nibble) : Word := (c ++ x) ++ (y ++ n)

/-- The word that spells an instruction: its pattern with the fields filled in (R84, R90). -/
def encode : Instr → Word
  | .cls => 0x00E0
  | .ret => 0x00EE
  | .jp nnn => encAddr 0x1 nnn
  | .call nnn => encAddr 0x2 nnn
  | .seImm x kk => encRK 0x3 x kk
  | .sneImm x kk => encRK 0x4 x kk
  | .seReg x y => encRRN 0x5 x y 0x0
  | .sneReg x y => encRRN 0x9 x y 0x0
  | .ldImm x kk => encRK 0x6 x kk
  | .addImm x kk => encRK 0x7 x kk
  | .ldReg x y => encRRN 0x8 x y 0x0
  | .orReg x y => encRRN 0x8 x y 0x1
  | .andReg x y => encRRN 0x8 x y 0x2
  | .xorReg x y => encRRN 0x8 x y 0x3
  | .addReg x y => encRRN 0x8 x y 0x4
  | .sub x y => encRRN 0x8 x y 0x5
  | .shr x y => encRRN 0x8 x y 0x6
  | .subn x y => encRRN 0x8 x y 0x7
  | .shl x y => encRRN 0x8 x y 0xE
  | .ldI nnn => encAddr 0xA nnn
  | .addI x => encRK 0xF x 0x1E
  | .ldF x => encRK 0xF x 0x29
  | .ldB x => encRK 0xF x 0x33
  | .dump x => encRK 0xF x 0x55
  | .load x => encRK 0xF x 0x65
  | .rnd x kk => encRK 0xC x kk
  | .ldVxDt x => encRK 0xF x 0x07
  | .ldDtVx x => encRK 0xF x 0x15
  | .ldStVx x => encRK 0xF x 0x18
  | .skp x => encRK 0xE x 0x9E
  | .sknp x => encRK 0xE x 0xA1
  | .drw x y n => encRRN 0xD x y n
  | .sys nnn => encAddr 0x0 nnn
  | .jpV0 nnn => encAddr 0xB nnn
  | .ldVxK x => encRK 0xF x 0x0A

/-! ### The opcode map (R84) -/

/-- One row of R84: a word spells its instruction when `w AND mask = pattern` (R83). -/
structure OpcodeRow where
  pattern : Word
  mask : Word
  mnemonic : String
deriving DecidableEq, Repr

/-- Whether a word matches a row. -/
def OpcodeRow.matched (row : OpcodeRow) (w : Word) : Bool := w &&& row.mask == row.pattern

/-- Rows 1 to 19. -/
def opcodeRowsA : List OpcodeRow :=
  [⟨0x00E0, 0xFFFF, "CLS"⟩, ⟨0x00EE, 0xFFFF, "RET"⟩, ⟨0x1000, 0xF000, "JP_nnn"⟩,
    ⟨0x2000, 0xF000, "CALL_nnn"⟩, ⟨0x3000, 0xF000, "SE_Vx__kk"⟩, ⟨0x4000, 0xF000, "SNE_Vx__kk"⟩,
    ⟨0x5000, 0xF00F, "SE_Vx__Vy"⟩, ⟨0x9000, 0xF00F, "SNE_Vx__Vy"⟩, ⟨0x6000, 0xF000, "LD_Vx__kk"⟩,
    ⟨0x7000, 0xF000, "ADD_Vx__kk"⟩, ⟨0x8000, 0xF00F, "LD_Vx__Vy"⟩, ⟨0x8001, 0xF00F, "OR_Vx__Vy"⟩,
    ⟨0x8002, 0xF00F, "AND_Vx__Vy"⟩, ⟨0x8003, 0xF00F, "XOR_Vx__Vy"⟩, ⟨0x8004, 0xF00F, "ADD_Vx__Vy"⟩,
    ⟨0x8005, 0xF00F, "SUB_Vx__Vy"⟩, ⟨0x8006, 0xF00F, "SHR_Vx"⟩, ⟨0x8007, 0xF00F, "SUBN_Vx__Vy"⟩,
    ⟨0x800E, 0xF00F, "SHL_Vx"⟩]

/-- Rows 20 to 35. -/
def opcodeRowsB : List OpcodeRow :=
  [⟨0xA000, 0xF000, "LD_I__nnn"⟩, ⟨0xF01E, 0xF0FF, "ADD_I__Vx"⟩, ⟨0xF029, 0xF0FF, "LD_F__Vx"⟩,
    ⟨0xF033, 0xF0FF, "LD_B__Vx"⟩, ⟨0xF055, 0xF0FF, "LD__I___Vx"⟩, ⟨0xF065, 0xF0FF, "LD_Vx___I"⟩,
    ⟨0xC000, 0xF000, "RND_Vx__kk"⟩, ⟨0xF007, 0xF0FF, "LD_Vx__DT"⟩, ⟨0xF015, 0xF0FF, "LD_DT__Vx"⟩,
    ⟨0xF018, 0xF0FF, "LD_ST__Vx"⟩, ⟨0xE09E, 0xF0FF, "SKP_Vx"⟩, ⟨0xE0A1, 0xF0FF, "SKNP_Vx"⟩,
    ⟨0xD000, 0xF000, "DRW_Vx__Vy__n"⟩, ⟨0x0000, 0xF000, "SYS_nnn"⟩, ⟨0xB000, 0xF000, "JP_V0__nnn"⟩,
    ⟨0xF00A, 0xF0FF, "LD_Vx__K"⟩]

/-- The opcode map, in the order of R84. Row 33 (SYS) matches class 0 only after rows 1 and 2 have
failed to match; no other two rows overlap. -/
def opcodeTable : List OpcodeRow := opcodeRowsA ++ opcodeRowsB

/-- The place of an instruction's row in `opcodeTable`, counted from 0. -/
def Instr.rowIndex : Instr → Nat
  | .cls => 0
  | .ret => 1
  | .jp _ => 2
  | .call _ => 3
  | .seImm _ _ => 4
  | .sneImm _ _ => 5
  | .seReg _ _ => 6
  | .sneReg _ _ => 7
  | .ldImm _ _ => 8
  | .addImm _ _ => 9
  | .ldReg _ _ => 10
  | .orReg _ _ => 11
  | .andReg _ _ => 12
  | .xorReg _ _ => 13
  | .addReg _ _ => 14
  | .sub _ _ => 15
  | .shr _ _ => 16
  | .subn _ _ => 17
  | .shl _ _ => 18
  | .ldI _ => 19
  | .addI _ => 20
  | .ldF _ => 21
  | .ldB _ => 22
  | .dump _ => 23
  | .load _ => 24
  | .rnd _ _ => 25
  | .ldVxDt _ => 26
  | .ldDtVx _ => 27
  | .ldStVx _ => 28
  | .skp _ => 29
  | .sknp _ => 30
  | .drw _ _ _ => 31
  | .sys _ => 32
  | .jpV0 _ => 33
  | .ldVxK _ => 34

/-! ### The opcode table's own numbering of an instruction's bits -/

/-- The bytes of an instruction whose bits are `w`, as memory holds them (R56): the instruction is
one 16-bit word, its high byte at the lower address. Bits from `nbits` on are 0. -/
def tableBytes (nbits w : Nat) : List Byte :=
  let v := w % 2 ^ nbits
  [BitVec.ofNat 8 (v / 256), BitVec.ofNat 8 v]

/-- The instruction the decoder reads from an instruction whose bits are `w`, numbered as
spec/opcode_table.json numbers them. -/
def decodeTableWord (nbits w : Nat) : Option Instr :=
  match decodeBytes (tableBytes nbits w) with
  | .ok (ins, _) => some ins
  | .error _ => none

end Sys2Proof
end

