-- ==== Sys2Proof/Machine/Optional.lean ====
section
/-! DEFINITION. The optional instructions, each under its parameter
(spec/45_optional.md R250 to R253). The `standard` meanings are general knowledge by the spec's
own mark: PRESUMED (log 16), unsafe for hardware that gives the words another meaning. -/

namespace Sys2Proof.Machine

/-- What an optional word does under its parameter (R250). -/
def byOption (o : OptOutcome) (w : Word) (standard : Result State) : Result State :=
  match o with
  | .refused => refuse (.undescribedInstruction w)
  | .unsupported => raise (.unsupportedOpcode w)
  | .standard => standard

/-- 0nnn (R251): no effect but the PC. -/
def execSys (nnn : Addr) (s : State) : Result State :=
  byOption s.config.optSys (encode (.sys nnn)) (.next s.advance)

/-- Bnnn (R252). -/
def execJpV0 (nnn : Addr) (s : State) : Result State :=
  byOption s.config.optJpV0 (encode (.jpV0 nnn))
    (.next (s.setPc (addrWord nnn + byteWord (s.reg 0))))

/-- Fx0A (R253): with no key pressed the cycle completes and PC stays. -/
def execLdVxK (x : Nibble) (s : State) : Result State :=
  byOption s.config.optWaitKey (encode (.ldVxK x))
    (.next
      (match s.lowestKey with
      | some k => (s.setReg x (k.setWidth 8)).advance
      | none => s))

end Sys2Proof.Machine
end

