-- ==== Sys2Proof/Machine/RegData.lean ====
section
/-! DEFINITION. The register data instructions (spec/41_register_data.md R140 to R151). -/

namespace Sys2Proof.Machine

/-- 6xkk (R140). -/
def execLdImm (x : Nibble) (kk : Byte) (s : State) : Result State :=
  .next (s.setReg x kk).advance

/-- 7xkk (R141): no flag. -/
def execAddImm (x : Nibble) (kk : Byte) (s : State) : Result State :=
  .next (s.setReg x (s.reg x + kk)).advance

/-- 8xy0 (R142). -/
def execLdReg (x y : Nibble) (s : State) : Result State :=
  .next (s.setReg x (s.reg y)).advance

/-- 8xy1 (R143): VF is not reset. -/
def execOrReg (x y : Nibble) (s : State) : Result State :=
  .next (s.setReg x (s.reg x ||| s.reg y)).advance

/-- 8xy2 (R144). -/
def execAndReg (x y : Nibble) (s : State) : Result State :=
  .next (s.setReg x (s.reg x &&& s.reg y)).advance

/-- 8xy3 (R145). -/
def execXorReg (x y : Nibble) (s : State) : Result State :=
  .next (s.setReg x (s.reg x ^^^ s.reg y)).advance

/-- 8xy4 (R146, R151). -/
def execAddReg (x y : Nibble) (s : State) : Result State :=
  .next (s.resultThenFlag x y (fun a b => a + b) carryFlag).advance

/-- 8xy5 (R147, R151): the flag is strict, `a > b`. -/
def execSub (x y : Nibble) (s : State) : Result State :=
  .next (s.flagThenResult x y (fun a b => a - b) greaterFlag).advance

/-- 8xy6 (R148, R151): `y` is not read. -/
def execShr (x : Nibble) (s : State) : Result State :=
  .next (s.flagThenResult x x (fun a _ => a >>> 1) fun a _ => lowBitFlag a).advance

/-- 8xy7 (R149, R151): the flag is strict, `b > a`. -/
def execSubn (x y : Nibble) (s : State) : Result State :=
  .next (s.flagThenResult x y (fun a b => b - a) fun a b => greaterFlag b a).advance

/-- 8xyE (R150, R151): `y` is not read. -/
def execShl (x : Nibble) (s : State) : Result State :=
  .next (s.flagThenResult x x (fun a _ => a <<< 1) fun a _ => highBitFlag a).advance

end Sys2Proof.Machine
end

