-- ==== Sys2Proof/Machine/Cycle.lean ====
section
/-! DEFINITION. One engine cycle (spec/40_cycle_and_control_flow.md R100 to R105) and the other
host calls (spec/60_exceptions.md R288). -/

namespace Sys2Proof.Machine

/-- The outcome of a word that matches no row (spec/30_encoding.md R86). -/
def undefinedWord (s : State) (w : Word) : Result State :=
  match s.config.undefinedWord with
  | .unsupported => raise (.unsupportedOpcode w)
  | .refused => refuse (.undefinedWord w)

/-- Decode (R102) and execute (R103). -/
def decodeAndExec (s : State) (w : Word) : Result State :=
  match decode w with
  | .ok ins => exec ins s
  | .error _ => undefinedWord s w

/-- One engine cycle, its inputs in place: fetch (R101), decode, execute; each instruction's
meaning ends with the post-execute PC (R104). The first of the three that fails decides the
result (spec/60_exceptions.md R278). -/
def runCycle (s : State) : Result State := andThen (fetchWord s) (decodeAndExec s)

/-- The state a call's own part starts from: for a cycle, its inputs are in place. -/
def beginCall (c : HostCall) (s : State) : State :=
  match c with
  | .cycle keys rnd => s.beginCycle keys rnd
  | .tick => s
  | .loadImage _ => s
  | .readFramebuffer => s
  | .soundActive => s

/-- What a call's own part does, from the state it starts from (spec/60_exceptions.md R288). -/
def attempt (c : HostCall) (s : State) : Result State :=
  match c with
  | .cycle _ _ => runCycle s
  | .tick => .next s.tick
  | .loadImage bytes => loadImage s bytes
  | .readFramebuffer => .next s
  | .soundActive => .next s

/-- A whole host call: an error its own part meets is taken in the state that part started from. -/
def perform (c : HostCall) (s : State) : Result State :=
  settle (beginCall c s) (attempt c (beginCall c s))

/-- The step: the host's next call, unless the refusal mark is set (spec/60_exceptions.md R276,
R288). -/
def nextCall (s : State) : Result State :=
  match s.refusal with
  | some r => refuse r
  | none => perform (takeCall s).1 (takeCall s).2

/-- Whether a host call is a cycle. -/
def HostCall.isCycle : HostCall → Bool
  | .cycle _ _ => true
  | .tick => false
  | .loadImage _ => false
  | .readFramebuffer => false
  | .soundActive => false

/-- `s` with the two bytes of an instruction word where the next cycle fetches, and with that
cycle the host's next call. A PC no instruction can be fetched at is first set to 0x200, and a
refusal mark, under which no call is made, is taken off. -/
def placeWord (s : State) (bytes : List Byte) : State :=
  let t := if s.pc.toNat + 1 > 0xFFF then s.setPc 0x200 else s
  { t.setBytes t.pc.toNat bytes with
    host := s.host.dropWhile fun c => !c.isCycle
    refusal := none }

end Sys2Proof.Machine
end

