-- ==== Sys2Proof/Machine/Step.lean ====
section
/-! DEFINITION. One step: the host's next call is made (spec/60_exceptions.md R288, R296). -/

namespace Sys2Proof.Machine

/-- One host call. An error is the call's result, in a next state (R274, R281); a refused call has no
next state (R276). -/
def step (s : State) : Host.Outcome State Fault Refusal := nextCall s

/-- `s` with the instruction whose bits are `w` (numbered as spec/opcode_table.json numbers them)
stored where `step` fetches its next instruction. Log 9. -/
def State.withFetchWord (s : State) (nbits w : Nat) : State := placeWord s (tableBytes nbits w)

end Sys2Proof.Machine
end

