-- ==== Sys2Proof/Safety.lean ====
section
/-! DEFINITION. The terms the statements use: what an instruction leaves unchanged, the invariant
of the machine, the end of a run, and the spec's own tables of who writes what. -/

namespace Sys2Proof.Machine

/-! ### Frames -/

/-- Every register but those listed reads as before. -/
def RegsKept (written : List Nibble) (s t : State) : Prop := ∀ r, r ∉ written → t.reg r = s.reg r

/-- Every byte of memory reads as before. -/
def MemoryKept (s t : State) : Prop := ∀ a, t.byteAt a = s.byteAt a

/-- From `s` to `t` the PC moved past one instruction and, of everything else, at most the listed
registers changed. -/
def WritesRegs (written : List Nibble) (s t : State) : Prop :=
  t = { s with v := t.v, pc := s.pc + 2 } ∧ RegsKept written s t ∧ MemoryKept s t

/-- From `s` to `t` nothing changed but the PC. -/
def WritesPc (s t : State) : Prop :=
  t = { s with pc := t.pc } ∧ RegsKept [] s t ∧ MemoryKept s t

/-- `STACK[k]` (spec/10_state.md R27). -/
def State.slot (s : State) (k : Fin 16) : Word := s.stack[k]

/-- The registers an instruction may write (spec/10_state.md R22, R34;
spec/42_index_memory_timer_data.md R185). -/
def regsWritten : Instr → List Nibble
  | .cls => []
  | .ret => []
  | .jp _ => []
  | .call _ => []
  | .seImm _ _ => []
  | .sneImm _ _ => []
  | .seReg _ _ => []
  | .sneReg _ _ => []
  | .ldImm x _ => [x]
  | .addImm x _ => [x]
  | .ldReg x _ => [x]
  | .orReg x _ => [x]
  | .andReg x _ => [x]
  | .xorReg x _ => [x]
  | .addReg x _ => [x, vF]
  | .sub x _ => [x, vF]
  | .shr x _ => [x, vF]
  | .subn x _ => [x, vF]
  | .shl x _ => [x, vF]
  | .ldI _ => []
  | .addI _ => []
  | .ldF _ => []
  | .ldB _ => []
  | .dump _ => []
  | .load x => (List.range (x.toNat + 1)).map (BitVec.ofNat 4)
  | .rnd x _ => [x]
  | .ldVxDt x => [x]
  | .ldDtVx _ => []
  | .ldStVx _ => []
  | .skp _ => []
  | .sknp _ => []
  | .drw _ _ _ => [vF]
  | .sys _ => []
  | .jpV0 _ => []
  | .ldVxK x => [x]

/-- How an instruction moves the PC (spec/40_cycle_and_control_flow.md R104). -/
inductive PcRule where
  /-- Always by the post-execute + 2. -/
  | plain
  /-- By 4 where its condition holds, else by the post-execute + 2. -/
  | skip
  /-- It writes the PC itself. -/
  | redirect
deriving DecidableEq, Repr

/-- The list of spec/40_cycle_and_control_flow.md R104. -/
def pcRule : Instr → PcRule
  | .cls => .plain
  | .ret => .redirect
  | .jp _ => .redirect
  | .call _ => .redirect
  | .seImm _ _ => .skip
  | .sneImm _ _ => .skip
  | .seReg _ _ => .skip
  | .sneReg _ _ => .skip
  | .ldImm _ _ => .plain
  | .addImm _ _ => .plain
  | .ldReg _ _ => .plain
  | .orReg _ _ => .plain
  | .andReg _ _ => .plain
  | .xorReg _ _ => .plain
  | .addReg _ _ => .plain
  | .sub _ _ => .plain
  | .shr _ _ => .plain
  | .subn _ _ => .plain
  | .shl _ _ => .plain
  | .ldI _ => .plain
  | .addI _ => .plain
  | .ldF _ => .plain
  | .ldB _ => .plain
  | .dump _ => .plain
  | .load _ => .plain
  | .rnd _ _ => .plain
  | .ldVxDt _ => .plain
  | .ldDtVx _ => .plain
  | .ldStVx _ => .plain
  | .skp _ => .skip
  | .sknp _ => .skip
  | .drw _ _ _ => .plain
  | .sys _ => .plain
  | .jpV0 _ => .redirect
  | .ldVxK _ => .redirect

/-! ### Draw -/

/-- Some 1-bit of the sprite of Dxyn falls on the cell `(c, r)` (spec/44_draw.md R231, R232). -/
def SpriteCovers (s : State) (x y n : Nibble) (c : Fin 64) (r : Fin 32) : Prop :=
  ∃ j k : Nat, j < 8 ∧ k < n.toNat ∧ (s.byteAt (s.i.toNat + k)).getLsbD (7 - j) = true ∧
    c.val = ((s.reg x).toNat + j) % 64 ∧ r.val = ((s.reg y).toNat + k) % 32

/-! ### Runs -/

/-- The step at `s` is a cycle that executes `ins` in state `u`: no refusal mark is set, the inputs are
in place, the fetch succeeds and the word decodes (spec/40_cycle_and_control_flow.md R100 to R102). -/
def RunsInstr (s u : State) (ins : Instr) : Prop :=
  s.refusal = none ∧ ∃ keys rnd v w, takeCall s = (.cycle keys rnd, v) ∧ u = v.beginCycle keys rnd ∧
    fetchWord u = .next w ∧ decode w = .ok ins

/-- Successive CALLs to the listed addresses. -/
def callAll : List Addr → State → Result State
  | [], s => .next s
  | a :: as, s => andThen (exec (.call a) s) (callAll as)

/-- `t` is reached from `s` by steps after each of which more than `d` frames are active. -/
inductive StaysAbove (d : Nat) : State → State → Prop where
  | refl (s : State) : StaysAbove d s s
  | step {s t u : State} : StaysAbove d s t → Machine.step t = .next u → d < u.sp.val →
      StaysAbove d s u

/-! ### The invariant -/

/-- What every state of a run satisfies: memory is in canonical form (so no cell lies outside the
address space), the PC is at most 0x10FE (spec/10_state.md R25, R35), and every stack slot holds
an address a CALL could have pushed (spec/40_cycle_and_control_flow.md R108). -/
abbrev State.Inv (s : State) : Prop :=
  s.memWf = true ∧ s.pc.toNat ≤ 0x10FE ∧ ∀ k : Fin 16, (s.slot k).toNat ≤ 0x1000

/-! ### The state after a call (spec/60_exceptions.md R274, R276) -/

/-- The state S' after the host's next call, whatever its result: a refused call leaves the refusal
mark on the state its own part started from. -/
def stateAfter (s : State) : State :=
  match Machine.step s with
  | .next t => t
  | .fault e => (beginCall (takeCall s).1 (takeCall s).2).takeError e
  | .refused r => (beginCall (takeCall s).1 (takeCall s).2).setRefusal r

/-! ### The end of a run (spec/60_exceptions.md R298) -/

/-- The word at PC is 1nnn with nnn = PC. -/
def selfJump (s : State) : Bool :=
  match fetchWord s with
  | .next w =>
    match decode w with
    | .ok (.jp nnn) => addrWord nnn == s.pc
    | _ => false
  | .fault _ => false
  | .refused _ => false

/-- How a run ends. -/
inductive RunEnd where
  /-- A cycle returned an error: a faulted end. -/
  | faulted (e : Fault)
  /-- A cycle was refused: an end without a meaning. -/
  | refused (r : Refusal)
  /-- The self-jump is reached: a normal end. -/
  | normal
deriving DecidableEq, Repr

/-- The end a call's result makes: a cycle's only, and only where it is not `Ok`. -/
def endOf (c : HostCall) (o : Result State) : Option RunEnd :=
  if c.isCycle then
    match o with
    | .next t =>
      match t.result with
      | .ok => none
      | .err e => some (.faulted e)
    | .fault e => some (.faulted e)
    | .refused r => some (.refused r)
  else none

/-- Whether, and how, the run ends at `s`: by the self-jump, or by the next call. A state that carries
the refusal mark is never final (R276). The hardware stops at neither end: this is a definition for
claims. -/
def runEnd (s : State) : Option RunEnd :=
  if s.refusal ≠ none then none
  else if selfJump s then some .normal
  else endOf (takeCall s).1 (Machine.step s)

end Sys2Proof.Machine
end

