-- ==== Sys2Proof/Certificates/Slice0/Obligations.lean ====
section
/-! DEFINITION. The statements for the provers. Each docstring names the rules of spec/ it
formalises. Statements about the model's own fields (`host`, `keys`, `rnd`, `boot`, `draws`,
`config`) hold for every value of them. -/

open Sys2Proof Sys2Proof.Machine

/-! ### Control flow (spec/40_cycle_and_control_flow.md) -/

/-- R107: 00E0 always completes, unlights every cell, and changes nothing else but the PC. -/
def Obligations.ClsUnlightsEveryCell : Prop :=
  ∀ s : State, ∃ t, exec .cls s = .next t ∧ (∀ c r, pixel t.fb c r = false) ∧
    t = { s with fb := t.fb, pc := s.pc + 2 } ∧ RegsKept [] s t ∧ MemoryKept s t

/-- R27, R108, R273: with k + 1 active frames 00EE completes, goes to slot k's address and leaves k
frames, the slots as they were (that a pop keeps its slot is R27's sentence; the model's reading of
it is DEDUCED, log 10); with none it raises StackUnderflow. -/
def Obligations.RetPopsTheReturnAddress : Prop :=
  (∀ (s : State) (k : Fin 16), s.sp.val = k.val + 1 →
    ∃ t, exec .ret s = .next t ∧ t.pc = s.slot k ∧ t.sp.val = k.val ∧
      t = { s with pc := t.pc, sp := t.sp } ∧ RegsKept [] s t ∧ MemoryKept s t) ∧
  ∀ s : State, s.sp.val = 0 → exec .ret s = .fault .stackUnderflow

/-- R109: 1nnn always completes, and writes nothing but the PC, which becomes nnn. -/
def Obligations.JpGoesToItsAddress : Prop :=
  ∀ (nnn : Addr) (s : State), ∃ t, exec (.jp nnn) s = .next t ∧ t.pc.toNat = nnn.toNat ∧ WritesPc s t

/-- R110: with k < 16 frames active 2nnn completes, puts PC + 2 in slot k, counts one frame more
and goes to nnn; with 16 it raises StackOverflow. -/
def Obligations.CallPushesTheReturnAddress : Prop :=
  (∀ (nnn : Addr) (s : State) (k : Fin 16), s.sp.val = k.val →
    ∃ t, exec (.call nnn) s = .next t ∧ t.pc.toNat = nnn.toNat ∧ t.sp.val = k.val + 1 ∧
      t.slot k = s.pc + 2 ∧ (∀ j, j ≠ k → t.slot j = s.slot j) ∧
      t = { s with pc := t.pc, sp := t.sp, stack := t.stack } ∧ RegsKept [] s t ∧ MemoryKept s t) ∧
  ∀ (nnn : Addr) (s : State), s.sp.val = 16 → exec (.call nnn) s = .fault .stackOverflow

/-- R111 to R114: 3xkk, 4xkk, 5xy0 and 9xy0 always complete, and write nothing but the PC. -/
def Obligations.SkipsFollowTheirConditions : Prop :=
  (∀ (x : Nibble) (kk : Byte) (s : State),
    (∃ t, exec (.seImm x kk) s = .next t ∧ WritesPc s t ∧
      t.pc = if s.reg x = kk then s.pc + 4 else s.pc + 2) ∧
    ∃ t, exec (.sneImm x kk) s = .next t ∧ WritesPc s t ∧
      t.pc = if s.reg x ≠ kk then s.pc + 4 else s.pc + 2) ∧
  ∀ (x y : Nibble) (s : State),
    (∃ t, exec (.seReg x y) s = .next t ∧ WritesPc s t ∧
      t.pc = if s.reg x = s.reg y then s.pc + 4 else s.pc + 2) ∧
    ∃ t, exec (.sneReg x y) s = .next t ∧ WritesPc s t ∧
      t.pc = if s.reg x ≠ s.reg y then s.pc + 4 else s.pc + 2

/-- R116: a RET executed where the frame of a completed CALL is on top again, after any steps that
kept that frame active, comes back to the instruction after the CALL with the count it had. -/
def Obligations.RetReturnsPastTheMatchingCall : Prop :=
  ∀ (nnn : Addr) (s t u : State), exec (.call nnn) s = .next t → StaysAbove s.sp.val t u →
    u.sp.val = s.sp.val + 1 →
    ∃ w, exec .ret u = .next w ∧ w.pc = s.pc + 2 ∧ w.sp = s.sp

/-- R272: from no active frame, 16 successive CALLs complete and a 17th raises StackOverflow. -/
def Obligations.SixteenCallsNestAndNoMore : Prop :=
  ∀ (as : List Addr) (s : State), as.length = 16 → s.sp.val = 0 →
    ∃ t, callAll as s = .next t ∧ t.sp.val = 16 ∧
      ∀ nnn : Addr, exec (.call nnn) t = .fault .stackOverflow

/-- R104: an instruction that does not redirect ends at PC + 2, and a skip at PC + 4 or PC + 2. -/
def Obligations.PcAdvancesByTwoUnlessRedirected : Prop :=
  ∀ (ins : Instr) (s t : State), exec ins s = .next t →
    (pcRule ins = .plain → t.pc = s.pc + 2) ∧
    (pcRule ins = .skip → t.pc = s.pc + 4 ∨ t.pc = s.pc + 2)

/-! ### Register data (spec/41_register_data.md) -/

/-- R140: 6xkk always completes; Vx is kk. -/
def Obligations.LdImmLoadsItsByte : Prop :=
  ∀ (x : Nibble) (kk : Byte) (s : State),
    ∃ t, exec (.ldImm x kk) s = .next t ∧ t.reg x = kk ∧ WritesRegs [x] s t

/-- R141: 7xkk always completes; Vx is the sum modulo 256, and no flag is written. -/
def Obligations.AddImmWrapsWithoutFlag : Prop :=
  ∀ (x : Nibble) (kk : Byte) (s : State),
    ∃ t, exec (.addImm x kk) s = .next t ∧
      (t.reg x).toNat = ((s.reg x).toNat + kk.toNat) % 256 ∧ WritesRegs [x] s t

/-- R142: 8xy0 always completes; Vx is Vy, and no flag is written. -/
def Obligations.LdRegCopiesVy : Prop :=
  ∀ (x y : Nibble) (s : State),
    ∃ t, exec (.ldReg x y) s = .next t ∧ t.reg x = s.reg y ∧ WritesRegs [x] s t

/-- R143, R144, R145: 8xy1, 8xy2 and 8xy3 always complete; each bit of Vx is the OR, AND or XOR of
the operands' bits, and no flag is written. -/
def Obligations.BitwiseOperationsBitByBit : Prop :=
  ∀ (x y : Nibble) (s : State),
    (∃ t, exec (.orReg x y) s = .next t ∧ WritesRegs [x] s t ∧
      ∀ k, (t.reg x).getLsbD k = ((s.reg x).getLsbD k || (s.reg y).getLsbD k)) ∧
    (∃ t, exec (.andReg x y) s = .next t ∧ WritesRegs [x] s t ∧
      ∀ k, (t.reg x).getLsbD k = ((s.reg x).getLsbD k && (s.reg y).getLsbD k)) ∧
    ∃ t, exec (.xorReg x y) s = .next t ∧ WritesRegs [x] s t ∧
      ∀ k, (t.reg x).getLsbD k = ((s.reg x).getLsbD k ^^ (s.reg y).getLsbD k)

/-- R146: 8xy4 always completes, under every `VF_ALIAS`; VF is the carry for every x and y, and
Vx, where it is not VF, is the sum modulo 256. -/
def Obligations.AddRegSetsCarry : Prop :=
  ∀ (x y : Nibble) (s : State),
    ∃ t, exec (.addReg x y) s = .next t ∧ WritesRegs [x, vF] s t ∧
      (x ≠ vF → (t.reg x).toNat = ((s.reg x).toNat + (s.reg y).toNat) % 256) ∧
      t.reg vF = if (s.reg x).toNat + (s.reg y).toNat > 255 then 1 else 0

/-- R147, R149: 8xy5 and 8xy7 always complete. Where neither x nor y is F, under every `VF_ALIAS`, and
for every x and y under `text_order`: Vx is Vx − Vy (Vy − Vx) modulo 256, and VF, where x is not F,
is 1 iff Vx > Vy (Vy > Vx) strictly. -/
def Obligations.SubtractionsSetStrictFlags : Prop :=
  ∀ (x y : Nibble) (s : State),
    (∃ t, exec (.sub x y) s = .next t ∧ WritesRegs [x, vF] s t ∧
      (s.config.vfAlias = .textOrder ∨ (x ≠ vF ∧ y ≠ vF) →
        (t.reg x).toNat = ((s.reg x).toNat + 256 - (s.reg y).toNat) % 256 ∧
        (x ≠ vF → t.reg vF = if (s.reg x).toNat > (s.reg y).toNat then 1 else 0))) ∧
    ∃ t, exec (.subn x y) s = .next t ∧ WritesRegs [x, vF] s t ∧
      (s.config.vfAlias = .textOrder ∨ (x ≠ vF ∧ y ≠ vF) →
        (t.reg x).toNat = ((s.reg y).toNat + 256 - (s.reg x).toNat) % 256 ∧
        (x ≠ vF → t.reg vF = if (s.reg y).toNat > (s.reg x).toNat then 1 else 0))

/-- R148, R150, R89: 8xy6 and 8xyE always complete, and y has no effect. Where x is not F, under every
`VF_ALIAS`, and for every x under `text_order`: Vx is halved (doubled modulo 256), and VF, where x
is not F, is the old bit 0 (bit 7). -/
def Obligations.ShiftsMoveABitIntoTheFlag : Prop :=
  ∀ (x y : Nibble) (s : State),
    (∀ y', exec (.shr x y') s = exec (.shr x y) s ∧ exec (.shl x y') s = exec (.shl x y) s) ∧
    (∃ t, exec (.shr x y) s = .next t ∧ WritesRegs [x, vF] s t ∧
      (s.config.vfAlias = .textOrder ∨ x ≠ vF →
        (t.reg x).toNat = (s.reg x).toNat / 2 ∧
        (x ≠ vF → (t.reg vF).toNat = (s.reg x).toNat % 2))) ∧
    ∃ t, exec (.shl x y) s = .next t ∧ WritesRegs [x, vF] s t ∧
      (s.config.vfAlias = .textOrder ∨ x ≠ vF →
        (t.reg x).toNat = (s.reg x).toNat * 2 % 256 ∧
        (x ≠ vF → (t.reg vF).toNat = (s.reg x).toNat / 128))

/-- R151: the table of outcomes where x or y is F, row by row, with a = old Vx, b = old Vy and f =
the instruction's flag, under each setting of `VF_ALIAS`. -/
def Obligations.VfAliasOutcomes : Prop :=
  (∀ (y : Nibble) (s t : State), exec (.addReg vF y) s = .next t →
    t.reg vF = carryFlag (s.reg vF) (s.reg y)) ∧
  (∀ (x : Nibble) (s t : State), x ≠ vF → exec (.addReg x vF) s = .next t →
    t.reg x = s.reg x + s.reg vF ∧ t.reg vF = carryFlag (s.reg x) (s.reg vF)) ∧
  (∀ (y : Nibble) (s t : State), y ≠ vF → exec (.sub vF y) s = .next t →
    t.reg vF =
      match s.config.vfAlias with
      | .textOrder => s.reg vF - s.reg y
      | .sequential => greaterFlag (s.reg vF) (s.reg y) - s.reg y
      | .flagLast => greaterFlag (s.reg vF) (s.reg y)) ∧
  (∀ (x : Nibble) (s t : State), x ≠ vF → exec (.sub x vF) s = .next t →
    t.reg vF = greaterFlag (s.reg x) (s.reg vF) ∧
    t.reg x =
      match s.config.vfAlias with
      | .textOrder => s.reg x - s.reg vF
      | .sequential => s.reg x - greaterFlag (s.reg x) (s.reg vF)
      | .flagLast => s.reg x - s.reg vF) ∧
  (∀ s t : State, exec (.sub vF vF) s = .next t → t.reg vF = 0) ∧
  (∀ (y : Nibble) (s t : State), y ≠ vF → exec (.subn vF y) s = .next t →
    t.reg vF =
      match s.config.vfAlias with
      | .textOrder => s.reg y - s.reg vF
      | .sequential => s.reg y - greaterFlag (s.reg y) (s.reg vF)
      | .flagLast => greaterFlag (s.reg y) (s.reg vF)) ∧
  (∀ (x : Nibble) (s t : State), x ≠ vF → exec (.subn x vF) s = .next t →
    t.reg vF = greaterFlag (s.reg vF) (s.reg x) ∧
    t.reg x =
      match s.config.vfAlias with
      | .textOrder => s.reg vF - s.reg x
      | .sequential => greaterFlag (s.reg vF) (s.reg x) - s.reg x
      | .flagLast => s.reg vF - s.reg x) ∧
  (∀ s t : State, exec (.subn vF vF) s = .next t → t.reg vF = 0) ∧
  (∀ (y : Nibble) (s t : State), exec (.shr vF y) s = .next t →
    (t.reg vF).toNat =
      match s.config.vfAlias with
      | .textOrder => (s.reg vF).toNat / 2
      | .sequential => 0
      | .flagLast => (s.reg vF).toNat % 2) ∧
  ∀ (y : Nibble) (s t : State), exec (.shl vF y) s = .next t →
    (t.reg vF).toNat =
      match s.config.vfAlias with
      | .textOrder => (s.reg vF).toNat * 2 % 256
      | .sequential => 2 * ((s.reg vF).toNat / 128)
      | .flagLast => (s.reg vF).toNat / 128

/-! ### Index, memory, random and timers (spec/42_index_memory_timer_data.md) -/

/-- R180, R181, R182: Annn, Fx1E and Fx29 always complete and write nothing but I and the PC. -/
def Obligations.IndexRegisterWrites : Prop :=
  (∀ (nnn : Addr) (s : State),
    ∃ t, exec (.ldI nnn) s = .next t ∧ t.i.toNat = nnn.toNat ∧
      t = { s with i := t.i, pc := s.pc + 2 } ∧ RegsKept [] s t ∧ MemoryKept s t) ∧
  (∀ (x : Nibble) (s : State),
    ∃ t, exec (.addI x) s = .next t ∧ t.i.toNat = (s.i.toNat + (s.reg x).toNat) % 65536 ∧
      t = { s with i := t.i, pc := s.pc + 2 } ∧ RegsKept [] s t ∧ MemoryKept s t) ∧
  ∀ (x : Nibble) (s : State),
    ∃ t, exec (.ldF x) s = .next t ∧ t.i.toNat = 5 * ((s.reg x).toNat % 16) ∧
      t = { s with i := t.i, pc := s.pc + 2 } ∧ RegsKept [] s t ∧ MemoryKept s t

/-- R183: Fx33 faults where I + 2 > 0xFFF, is refused in the font region under `FONT_WRITE =
refused` (that the refusal carries I is the model's deduction, log 11), and otherwise completes: the
bytes at I, I + 1, I + 2 are the digits, but for those `FONT_WRITE = ignore` keeps, and every other
byte is unchanged. -/
def Obligations.BcdStoresThreeDigits : Prop :=
  ∀ (x : Nibble) (s : State),
    (s.i.toNat + 2 > 0xFFF → exec (.ldB x) s = .fault .memoryFault) ∧
    (s.i.toNat ≤ 0x04F → s.config.fontWrite = .refused →
      exec (.ldB x) s = .refused (.fontRegionWrite s.i.toNat)) ∧
    (s.i.toNat + 2 ≤ 0xFFF → 0x04F < s.i.toNat ∨ s.config.fontWrite ≠ .refused →
      ∃ t, exec (.ldB x) s = .next t ∧ t = { s with mem := t.mem, pc := s.pc + 2 } ∧
        RegsKept [] s t ∧
        (∀ a, 0x04F < a ∨ s.config.fontWrite = .write →
          (a = s.i.toNat → (t.byteAt a).toNat = (s.reg x).toNat / 100) ∧
          (a = s.i.toNat + 1 → (t.byteAt a).toNat = (s.reg x).toNat / 10 % 10) ∧
          (a = s.i.toNat + 2 → (t.byteAt a).toNat = (s.reg x).toNat % 10)) ∧
        (∀ a, a ≤ 0x04F → s.config.fontWrite = .ignore → t.byteAt a = s.byteAt a) ∧
        ∀ a, a < s.i.toNat ∨ s.i.toNat + 2 < a → t.byteAt a = s.byteAt a)

/-- R184: Fx55 faults where I + x > 0xFFF, is refused in the font region under `FONT_WRITE =
refused` (that the refusal carries I is the model's deduction, log 11), and otherwise completes: the
bytes at I to I + x are V0 to Vx, but for those `FONT_WRITE = ignore` keeps, every other byte is
unchanged, and I follows `LS_I_INCREMENT`. -/
def Obligations.DumpStoresRegisters : Prop :=
  ∀ (x : Nibble) (s : State),
    (s.i.toNat + x.toNat > 0xFFF → exec (.dump x) s = .fault .memoryFault) ∧
    (s.i.toNat ≤ 0x04F → s.config.fontWrite = .refused →
      exec (.dump x) s = .refused (.fontRegionWrite s.i.toNat)) ∧
    (s.i.toNat + x.toNat ≤ 0xFFF → 0x04F < s.i.toNat ∨ s.config.fontWrite ≠ .refused →
      ∃ t, exec (.dump x) s = .next t ∧ t = { s with mem := t.mem, i := t.i, pc := s.pc + 2 } ∧
        RegsKept [] s t ∧
        (t.i.toNat =
          match s.config.lsIIncrement with
          | .none => s.i.toNat
          | .xPlus1 => (s.i.toNat + x.toNat + 1) % 65536) ∧
        (∀ k : Nibble, k.toNat ≤ x.toNat →
          0x04F < s.i.toNat + k.toNat ∨ s.config.fontWrite = .write →
          t.byteAt (s.i.toNat + k.toNat) = s.reg k) ∧
        (∀ a, a ≤ 0x04F → s.config.fontWrite = .ignore → t.byteAt a = s.byteAt a) ∧
        ∀ a, a < s.i.toNat ∨ s.i.toNat + x.toNat < a → t.byteAt a = s.byteAt a)

/-- R185: Fx65 faults where I + x > 0xFFF, and otherwise completes: V0 to Vx are the bytes at I to
I + x, the other registers and all of memory are unchanged, and I follows `LS_I_INCREMENT`. -/
def Obligations.LoadFillsRegisters : Prop :=
  ∀ (x : Nibble) (s : State),
    (s.i.toNat + x.toNat > 0xFFF → exec (.load x) s = .fault .memoryFault) ∧
    (s.i.toNat + x.toNat ≤ 0xFFF →
      ∃ t, exec (.load x) s = .next t ∧ t = { s with v := t.v, i := t.i, pc := s.pc + 2 } ∧
        MemoryKept s t ∧
        (t.i.toNat =
          match s.config.lsIIncrement with
          | .none => s.i.toNat
          | .xPlus1 => (s.i.toNat + x.toNat + 1) % 65536) ∧
        (∀ k : Nibble, k.toNat ≤ x.toNat → t.reg k = s.byteAt (s.i.toNat + k.toNat)) ∧
        ∀ k : Nibble, x.toNat < k.toNat → t.reg k = s.reg k)

/-- R186: Cxkk always completes; each bit of Vx is the AND of the cycle's random byte and kk,
whatever byte the host supplies. -/
def Obligations.RndMasksTheRandomByte : Prop :=
  ∀ (x : Nibble) (kk : Byte) (s : State),
    ∃ t, exec (.rnd x kk) s = .next t ∧ WritesRegs [x] s t ∧
      ∀ k, (t.reg x).getLsbD k = (s.rnd.getLsbD k && kk.getLsbD k)

/-- R187, R188, R189: Fx07, Fx15 and Fx18 always complete; Vx is DT, DT is Vx, ST is Vx, and
nothing else changes but the PC. -/
def Obligations.TimerTransfers : Prop :=
  ∀ (x : Nibble) (s : State),
    (∃ t, exec (.ldVxDt x) s = .next t ∧ t.reg x = s.dt ∧ WritesRegs [x] s t) ∧
    (∃ t, exec (.ldDtVx x) s = .next t ∧ t.dt = s.reg x ∧
      t = { s with dt := t.dt, pc := s.pc + 2 } ∧ RegsKept [] s t ∧ MemoryKept s t) ∧
    ∃ t, exec (.ldStVx x) s = .next t ∧ t.st = s.reg x ∧
      t = { s with st := t.st, pc := s.pc + 2 } ∧ RegsKept [] s t ∧ MemoryKept s t

/-! ### Keypad (spec/43_keypad.md) -/

/-- R220, R221, R222: with Vx at most 15, or its low nibble under `KEY_INDEX_OOR = low_nibble`,
naming key k, Ex9E skips iff key k is pressed and ExA1 iff it is not, and both write nothing but
the PC; with Vx above 15 under `refused` both are refused. -/
def Obligations.KeypadSkips : Prop :=
  (∀ (x : Nibble) (s : State) (k : Fin 16), (s.reg x).toNat % 16 = k.val →
    (s.reg x).toNat ≤ 15 ∨ s.config.keyIndexOor = .lowNibble →
    (∃ t, exec (.skp x) s = .next t ∧ WritesPc s t ∧
      t.pc = if s.keys[k] = true then s.pc + 4 else s.pc + 2) ∧
    ∃ t, exec (.sknp x) s = .next t ∧ WritesPc s t ∧
      t.pc = if s.keys[k] = false then s.pc + 4 else s.pc + 2) ∧
  ∀ (x : Nibble) (s : State), (s.reg x).toNat > 15 → s.config.keyIndexOor = .refused →
    exec (.skp x) s = .refused (.keyIndexOutOfRange (s.reg x)) ∧
    exec (.sknp x) s = .refused (.keyIndexOutOfRange (s.reg x))

/-! ### Draw (spec/44_draw.md) -/

/-- R230 to R234: Dxyn faults where its sprite has a byte above 0xFFF, and otherwise completes (for
n = 0 too, whatever I is): the cells the sprite's 1-bits fall on are inverted, every other cell
is kept, and VF is 1 iff one of those cells was lit, else 0. -/
def Obligations.DrawInvertsCoveredCells : Prop :=
  ∀ (x y n : Nibble) (s : State),
    (0 < n.toNat → s.i.toNat + n.toNat - 1 > 0xFFF → exec (.drw x y n) s = .fault .memoryFault) ∧
    (n.toNat = 0 ∨ s.i.toNat + n.toNat - 1 ≤ 0xFFF →
      ∃ t, exec (.drw x y n) s = .next t ∧
        t = { s with fb := t.fb, v := t.v, pc := s.pc + 2 } ∧ RegsKept [vF] s t ∧ MemoryKept s t ∧
        (∀ c r, (SpriteCovers s x y n c r → pixel t.fb c r = !pixel s.fb c r) ∧
          (¬SpriteCovers s x y n c r → pixel t.fb c r = pixel s.fb c r)) ∧
        ((∃ c r, SpriteCovers s x y n c r ∧ pixel s.fb c r = true) → t.reg vF = 1) ∧
        ((¬∃ c r, SpriteCovers s x y n c r ∧ pixel s.fb c r = true) → t.reg vF = 0))

/-- R236: two identical draws, neither coordinate from VF, restore every cell, and the second sets
VF exactly when a 1-bit falls on a cell unlit before the first. -/
def Obligations.DrawTwiceRestoresTheScreen : Prop :=
  ∀ (x y n : Nibble) (s t u : State), x ≠ vF → y ≠ vF → exec (.drw x y n) s = .next t →
    exec (.drw x y n) t = .next u →
    (∀ c r, pixel u.fb c r = pixel s.fb c r) ∧
    (u.reg vF = 1 ↔ ∃ c r, SpriteCovers s x y n c r ∧ pixel s.fb c r = false)

/-! ### Optional instructions (spec/45_optional.md) -/

/-- R250, R251: 0nnn is refused, unsupported or completes with no effect but the PC, as `OPT_SYS`
says. -/
def Obligations.SysFollowsItsParameter : Prop :=
  ∀ (nnn : Addr) (s : State),
    (s.config.optSys = .refused →
      exec (.sys nnn) s = .refused (.undescribedInstruction (encode (.sys nnn)))) ∧
    (s.config.optSys = .unsupported →
      exec (.sys nnn) s = .fault (.unsupportedOpcode (encode (.sys nnn)))) ∧
    (s.config.optSys = .standard →
      ∃ t, exec (.sys nnn) s = .next t ∧ t.pc = s.pc + 2 ∧ WritesPc s t)

/-- R250, R252: Bnnn is refused, unsupported or goes to nnn + V0, as `OPT_JPV0` says. -/
def Obligations.JpV0FollowsItsParameter : Prop :=
  ∀ (nnn : Addr) (s : State),
    (s.config.optJpV0 = .refused →
      exec (.jpV0 nnn) s = .refused (.undescribedInstruction (encode (.jpV0 nnn)))) ∧
    (s.config.optJpV0 = .unsupported →
      exec (.jpV0 nnn) s = .fault (.unsupportedOpcode (encode (.jpV0 nnn)))) ∧
    (s.config.optJpV0 = .standard →
      ∃ t, exec (.jpV0 nnn) s = .next t ∧ t.pc.toNat = nnn.toNat + (s.reg 0).toNat ∧ WritesPc s t)

/-- R250, R253: Fx0A is refused or unsupported, or, as `OPT_WAITKEY = standard` says, completes:
with the lowest pressed key in Vx, or, with none pressed, with nothing changed, the PC included. -/
def Obligations.WaitKeyFollowsItsParameter : Prop :=
  ∀ (x : Nibble) (s : State),
    (s.config.optWaitKey = .refused →
      exec (.ldVxK x) s = .refused (.undescribedInstruction (encode (.ldVxK x)))) ∧
    (s.config.optWaitKey = .unsupported →
      exec (.ldVxK x) s = .fault (.unsupportedOpcode (encode (.ldVxK x)))) ∧
    (s.config.optWaitKey = .standard →
      (∀ k : Fin 16, s.keys[k] = true → (∀ j : Fin 16, j < k → s.keys[j] = false) →
        ∃ t, exec (.ldVxK x) s = .next t ∧ (t.reg x).toNat = k.val ∧ WritesRegs [x] s t) ∧
      ((∀ k : Fin 16, s.keys[k] = false) → exec (.ldVxK x) s = .next s))

/-! ### The engine cycle (spec/40_cycle_and_control_flow.md, spec/20_memory.md) -/

/-- R100 to R103: where the host's next call is a cycle and the two bytes at the PC, the one at the
PC in the high half, decode to an instruction, the step is `exec` of it in the state with the call
off the schedule and its inputs in place; an error it meets is the call's result, and nothing else
changes (R274; that the result stands in the state is the model's choice, log 6). The next call is
the schedule's first; with the schedule empty it is a cycle with free inputs, after free ticks (the
model's choice, log 4, 5). -/
def Obligations.StepExecutesTheDecodedInstruction : Prop :=
  (∀ (s v u : State) (keys : Keys) (rnd : Byte) (ins : Instr), s.refusal = none →
    takeCall s = (.cycle keys rnd, v) → v.pc.toNat + 1 ≤ 0xFFF →
    decode (v.byteAt v.pc.toNat ++ v.byteAt (v.pc.toNat + 1)) = .ok ins →
    u = { v with keys := keys, rnd := rnd, boot := .running, result := .ok } →
    step s =
      match exec ins u with
      | .next t => .next t
      | .fault e => .next { u with result := .err e }
      | .refused r => .refused r) ∧
  (∀ (s : State) (c : HostCall) (rest : List HostCall), s.host = c :: rest →
    takeCall s = (c, { s with host := rest })) ∧
  ∀ s : State, s.host = [] →
    takeCall s = (.cycle (Config.freeKeys s.draws) (Config.freeRnd s.draws),
      { s.ticks (Config.freeTicks s.draws) with draws := s.draws + 1 })

/-- R101: the fetch reads the bytes at PC and PC + 1, the first in the high half, at any PC, even or
odd, where both exist; at a PC of 0xFFF or more it raises MemoryFault. R274 (for this error the
spec's own decision D11): a cycle there returns the error and changes nothing else; that the error
stands in a next state is the model's choice, log 6. -/
def Obligations.FetchReadsTwoBytesOrFaults : Prop :=
  (∀ s : State, s.pc.toNat + 1 ≤ 0xFFF →
    fetchWord s = .next (s.byteAt s.pc.toNat ++ s.byteAt (s.pc.toNat + 1))) ∧
  (∀ s : State, s.pc.toNat ≥ 0xFFF → fetchWord s = .fault .memoryFault) ∧
  ∀ (s v : State) (keys : Keys) (rnd : Byte), s.refusal = none →
    takeCall s = (.cycle keys rnd, v) → v.pc.toNat ≥ 0xFFF →
    step s = .next
      { v with keys := keys, rnd := rnd, boot := .running, result := .err .memoryFault }

/-- R86, R275: the words that decode to no instruction are exactly those of the five classes R86
lists, and a cycle that fetches one returns UnsupportedOpcode with the word, or is refused, as
`UNDEFINED_WORD_OUTCOME` says. -/
def Obligations.UndefinedWordsAreUnsupported : Prop :=
  (∀ w : Word, decode w = .error (.undefinedWord w) ↔
    ((opClass w = 0x5 ∨ opClass w = 0x9) ∧ fieldN w ≠ 0) ∨
    (opClass w = 0x8 ∧ fieldN w ∈ [(0x8 : Nibble), 0x9, 0xA, 0xB, 0xC, 0xD, 0xF]) ∨
    (opClass w = 0xE ∧ fieldKK w ∉ [(0x9E : Byte), 0xA1]) ∨
    (opClass w = 0xF ∧
      fieldKK w ∉ [(0x07 : Byte), 0x0A, 0x15, 0x18, 0x1E, 0x29, 0x33, 0x55, 0x65])) ∧
  ∀ (s v : State) (keys : Keys) (rnd : Byte) (w : Word), s.refusal = none →
    takeCall s = (.cycle keys rnd, v) → fetchWord v = .next w → (∀ ins, decode w ≠ .ok ins) →
    step s =
      match v.config.undefinedWord with
      | .unsupported => .next
          { v with keys := keys, rnd := rnd, boot := .running, result := .err (.unsupportedOpcode w) }
      | .refused => .refused (.undefinedWord w)

/-- R65: bytes that Fx55 stores where the PC then points are the next word fetched, in the font region
too where `FONT_WRITE = write` stores them there. -/
def Obligations.StoreIsSeenByTheNextFetch : Prop :=
  ∀ (x k : Nibble) (s t : State), exec (.dump x) s = .next t → k.toNat + 1 ≤ x.toNat →
    t.pc.toNat = s.i.toNat + k.toNat →
    0x04F < s.i.toNat + k.toNat ∨ s.config.fontWrite = .write →
    fetchWord t = .next (s.reg k ++ s.reg (k + 1))

/-- R109, R298: a cycle at a self-jump completes and changes nothing but what a cycle's call itself
changes: it repeats. -/
def Obligations.SelfJumpRepeats : Prop :=
  ∀ (s : State) (keys : Keys) (rnd : Byte) (rest : List HostCall), s.refusal = none →
    s.host = .cycle keys rnd :: rest → selfJump s = true →
    step s = .next
      { s with keys := keys, rnd := rnd, boot := .running, host := rest, result := .ok }

/-! ### Errors and refusals (spec/60_exceptions.md) -/

/-- R274, R281: no step ends in an error. A cycle or a load that returns one leaves the state it began
in (the free ticks before a cycle count: log 5), and that state takes the next call. -/
def Obligations.ErrorsAreReturnedAndTheMachineGoesOn : Prop :=
  (∀ (s : State) (e : Fault), step s ≠ .fault e) ∧
  (∀ (s v t : State) (keys : Keys) (rnd : Byte) (e : Fault),
    takeCall s = (.cycle keys rnd, v) → step s = .next t → t.result = .err e →
    t = { v with keys := keys, rnd := rnd, boot := .running, result := .err e }) ∧
  ∀ (s t : State) (bytes : List Byte) (rest : List HostCall) (e : Fault),
    s.host = .loadImage bytes :: rest → step s = .next t → t.result = .err e →
    t = { s with host := rest, result := .err e }

/-- R276: a refused call sets the mark, which no call clears and under which no call is made; a state
that carries it is never final, and no other step gives one. -/
def Obligations.TheRefusalMarkIsNeverCleared : Prop :=
  (∀ (s : State) (r : Refusal), step s = .refused r → (stateAfter s).refusal = some r) ∧
  (∀ (s : State) (r : Refusal), s.refusal = some r →
    step s = .refused r ∧ (stateAfter s).refusal = some r ∧ runEnd s = none) ∧
  ∀ s t : State, step s = .next t → t.refusal = none

/-! ### Timers, framebuffer and image load (spec/60_exceptions.md, spec/70_reset_and_hazards.md) -/

/-- R284: a tick never fails, takes one from each timer that is not zero, and touches nothing else
but the host's schedule. -/
def Obligations.TickCountsBothTimersDown : Prop :=
  ∀ (s : State) (rest : List HostCall), s.refusal = none → s.host = .tick :: rest →
    ∃ t, step s = .next t ∧ t.dt.toNat = s.dt.toNat - 1 ∧ t.st.toNat = s.st.toNat - 1 ∧
      t = { s with dt := t.dt, st := t.st, host := rest }

/-- R285: the free ticks before a cycle that no schedule fixes are that many ticks one after the
other (the model's form of the host's choice, log 5). -/
def Obligations.FreeTicksAreTicks : Prop :=
  ∀ (s : State) (k : Nat), s.ticks k = State.tick^[k] s

/-- R286, R290: the sound output is ST ≠ 0, the framebuffer read is FB, and a host call of either
changes nothing but the host's schedule. -/
def Obligations.OutputsHaveNoSideEffect : Prop :=
  (∀ s : State, (s.soundActive = true ↔ s.st.toNat ≠ 0) ∧ s.readFramebuffer = s.fb) ∧
  ∀ (s : State) (rest : List HostCall), s.refusal = none →
    s.host = .readFramebuffer :: rest ∨ s.host = .soundActive :: rest →
    step s = .next { s with host := rest }

/-- R312, R313, R314: a load of at most 3584 bytes before any other load or cycle completes: byte k
is at 0x200 + k, every other byte and the rest of the state are unchanged, and no further load is
at its start; a longer image returns ImageTooLarge and changes nothing else; a load at any other
time, of an image that would fit, is refused. -/
def Obligations.LoadImageFillsMemoryOnce : Prop :=
  ∀ (s : State) (bytes : List Byte) (rest : List HostCall), s.refusal = none →
    s.host = .loadImage bytes :: rest →
    (s.boot = .fresh → bytes.length ≤ 3584 →
      ∃ t, step s = .next t ∧
        t = { s with mem := t.mem, boot := .loaded, host := rest, result := .ok } ∧
        (∀ k b, bytes[k]? = some b → t.byteAt (0x200 + k) = b) ∧
        ∀ a, a < 0x200 ∨ 0x200 + bytes.length ≤ a → t.byteAt a = s.byteAt a) ∧
    (s.boot = .fresh → bytes.length > 3584 →
      step s = .next { s with host := rest, result := .err .imageTooLarge }) ∧
    (s.boot ≠ .fresh → bytes.length ≤ 3584 → step s = .refused .loadNotAtStart)

/-- R314: no step takes the boot order back: past `fresh` it stays past it, at `running` it stays
there, and a cycle leaves it at `running`, whatever the cycle's result. -/
def Obligations.BootOrderNeverGoesBack : Prop :=
  ∀ s t : State, step s = .next t →
    (s.boot ≠ .fresh → t.boot ≠ .fresh) ∧ (s.boot = .running → t.boot = .running) ∧
    ∀ (v : State) (keys : Keys) (rnd : Byte), takeCall s = (.cycle keys rnd, v) → t.boot = .running

/-! ### Reset (spec/10_state.md R37, spec/00_scope.md R7) -/

/-- R37: what `Init()` leaves, under any parameters. -/
def Obligations.ResetLeavesTheInitialState : Prop :=
  ∀ c : Config,
    (∀ x, (State.resetWith c).reg x = 0) ∧ (State.resetWith c).i = 0 ∧
    (State.resetWith c).pc = 0x200 ∧ (State.resetWith c).sp.val = 0 ∧
    (∀ k, (State.resetWith c).slot k = 0) ∧ (State.resetWith c).dt = 0 ∧
    (State.resetWith c).st = 0 ∧ (∀ col row, pixel (State.resetWith c).fb col row = false) ∧
    (∀ a : Fin 80, (State.resetWith c).byteAt a.val = c.font[a]) ∧
    ∀ a, 0x050 ≤ a → (State.resetWith c).byteAt a = 0

/-- R7, R33: the default of every parameter. -/
def Obligations.ParameterDefaults : Prop :=
  defaultConfig.vfAlias = .textOrder ∧ defaultConfig.lsIIncrement = .none ∧
  defaultConfig.keyIndexOor = .refused ∧ defaultConfig.fontWrite = .refused ∧
  defaultConfig.undefinedWord = .unsupported ∧ defaultConfig.optSys = .refused ∧
  defaultConfig.optJpV0 = .refused ∧ defaultConfig.optWaitKey = .refused ∧
  defaultConfig.font.toList =
    [0xF0, 0x90, 0x90, 0x90, 0xF0] ++
    [0x20, 0x60, 0x20, 0x20, 0x70] ++
    [0xF0, 0x10, 0xF0, 0x80, 0xF0] ++
    [0xF0, 0x10, 0xF0, 0x10, 0xF0] ++
    [0x90, 0x90, 0xF0, 0x10, 0x10] ++
    [0xF0, 0x80, 0xF0, 0x10, 0xF0] ++
    [0xF0, 0x80, 0xF0, 0x90, 0xF0] ++
    [0xF0, 0x10, 0x20, 0x40, 0x40] ++
    [0xF0, 0x90, 0xF0, 0x90, 0xF0] ++
    [0xF0, 0x90, 0xF0, 0x10, 0xF0] ++
    [0xF0, 0x90, 0xF0, 0x90, 0x90] ++
    [0xE0, 0x90, 0xE0, 0x90, 0xE0] ++
    [0xF0, 0x80, 0x80, 0x80, 0xF0] ++
    [0xE0, 0x90, 0x90, 0x90, 0xE0] ++
    [0xF0, 0x80, 0xF0, 0x80, 0xF0] ++
    [0xF0, 0x80, 0xF0, 0x80, 0x80]

/-- The model's choices (log 1, 4, 6, 7, 8). After `Init()`, under any parameters, an image load is at
its start (R314, R315), no call is scheduled, no error was returned and no refusal mark is set; and
the machine `State.reset` gives has R7's defaults, but where the default is a refusal it has an
effect the spec gives among the parameter's values. -/
def Obligations.ResetOfTheModelsOwnFields : Prop :=
  (∀ c : Config, (State.resetWith c).config = c ∧ (State.resetWith c).boot = .fresh ∧
    (State.resetWith c).host = [] ∧ (State.resetWith c).result = .ok ∧
    (State.resetWith c).refusal = none) ∧
  State.reset = State.resetWith
    { defaultConfig with
      keyIndexOor := .lowNibble, fontWrite := .ignore, optSys := .standard,
      optJpV0 := .standard, optWaitKey := .standard }

/-! ### Encoding (spec/30_encoding.md) -/

/-- R81, R90: decoding the encoding of any well-formed instruction gives it back, every operand at
every value. -/
def Obligations.DecodeOfEncode : Prop :=
  ∀ ins : Instr, ins.wellFormed = true → decode (encode ins) = .ok ins

/-- R83: a word that decodes is the encoding of the well-formed instruction it decodes to, so each
word has one meaning and none has a neighbour's. -/
def Obligations.EncodeOfDecode : Prop :=
  ∀ (w : Word) (ins : Instr), decode w = .ok ins → ins.wellFormed = true ∧ encode ins = w

/-- R83, R84: the decoder by classes reads the instruction of the first row of the opcode map whose
fixed bits the word has, and no instruction where there is no such row. -/
def Obligations.DecodeFollowsTheOpcodeMap : Prop :=
  ∀ w : Word,
    (match decode w with
      | .ok ins => some ins.rowIndex
      | .error _ => none) = opcodeTable.findIdx? fun row => row.matched w

/-- R83, R84: no word matches two rows of the opcode map, but for SYS (the 33rd row), which the
words of the first two rows match too. -/
def Obligations.OpcodeRowsDoNotOverlap : Prop :=
  ∀ (w : Word) (j k : Nat) (rj rk : OpcodeRow), opcodeTable[j]? = some rj →
    opcodeTable[k]? = some rk → j < k → rj.matched w = true → rk.matched w = true →
    k = 32 ∧ j < 2

/-- R84, R90: words written out from the spec's encodings decode to what they spell. -/
def Obligations.SpecWordsDecode : Prop :=
  decode 0x8344 = .ok (.addReg 3 4) ∧ decode 0xD015 = .ok (.drw 0 1 5) ∧
  decode 0x00E0 = .ok .cls ∧ decode 0x1228 = .ok (.jp 0x228) ∧
  decode 0x3210 = .ok (.seImm 2 0x10) ∧ decode 0xA2F0 = .ok (.ldI 0x2F0) ∧
  decode 0xF133 = .ok (.ldB 1) ∧ decode 0xE09E = .ok (.skp 0) ∧
  decode 0x5121 = .error (.undefinedWord 0x5121)

/-! ### Whole-machine rules -/

/-- The invariant is kept by every step, from every state that satisfies it: memory stays in
canonical form and inside the address space, PC stays at most 0x10FE (R25, R35), and the stack
holds only addresses a CALL can push (R108). -/
def Obligations.StepKeepsTheInvariant : Prop :=
  ∀ s t : State, s.Inv → step s = .next t → t.Inv

/-- The invariant holds after reset (R37). -/
def Obligations.ResetSatisfiesTheInvariant : Prop := State.reset.Inv

/-- No step changes a parameter (R39: the configuration is not state). -/
def Obligations.StepKeepsTheParameters : Prop :=
  ∀ s t : State, step s = .next t → t.config = s.config

/-- R33, R54: unless `FONT_WRITE = write`, no step changes a byte of the font region. -/
def Obligations.FontRegionIsImmutable : Prop :=
  ∀ s t : State, s.config.fontWrite ≠ .write → step s = .next t →
    ∀ a, a ≤ 0x04F → t.byteAt a = s.byteAt a

/-- R30: a step that changes a cell of the framebuffer is a cycle that executes 00E0 or Dxyn. -/
def Obligations.OnlyClsAndDrawWriteTheScreen : Prop :=
  ∀ (s t : State) (c : Fin 64) (r : Fin 32), step s = .next t → pixel t.fb c r ≠ pixel s.fb c r →
    ∃ u ins, RunsInstr s u ins ∧ (ins = .cls ∨ ∃ x y n, ins = .drw x y n)

/-- R28: a step that changes SP or a stack slot is a cycle that executes 2nnn or 00EE, and 00EE
changes no slot. -/
def Obligations.OnlyCallAndRetTouchTheStack : Prop :=
  ∀ s t : State, step s = .next t →
    (t.sp ≠ s.sp → ∃ u ins, RunsInstr s u ins ∧ (ins = .ret ∨ ∃ nnn, ins = .call nnn)) ∧
    ∀ k, t.slot k ≠ s.slot k → ∃ u nnn, RunsInstr s u (.call nnn)

/-- R116, as a step: a frame that is active before a step and after it keeps its return address. -/
def Obligations.StepKeepsActiveFrames : Prop :=
  ∀ (s t : State) (k : Fin 16), k.val < s.sp.val → step s = .next t → k.val < t.sp.val →
    t.slot k = s.slot k

/-- R58, R312: a step that changes a byte of memory is an image load or a cycle that executes Fx33
or Fx55, and the byte is one of those it stores. -/
def Obligations.OnlyStoresAndLoadsWriteMemory : Prop :=
  ∀ (s t : State) (a : Nat), step s = .next t → t.byteAt a ≠ s.byteAt a →
    (∃ bytes rest, s.host = .loadImage bytes :: rest ∧ 0x200 ≤ a ∧ a < 0x200 + bytes.length) ∨
    (∃ u x, RunsInstr s u (.ldB x) ∧ s.i.toNat ≤ a ∧ a ≤ s.i.toNat + 2) ∨
    ∃ u x, RunsInstr s u (.dump x) ∧ s.i.toNat ≤ a ∧ a ≤ s.i.toNat + x.toNat

/-- R105: no instruction changes DT but Fx15, and none changes ST but Fx18. -/
def Obligations.CyclesKeepTheTimers : Prop :=
  ∀ (ins : Instr) (s t : State), exec ins s = .next t →
    (t.dt ≠ s.dt → ∃ x, ins = .ldDtVx x) ∧ (t.st ≠ s.st → ∃ x, ins = .ldStVx x)

/-- R21, R22, R34: an instruction writes no register but its destination and, for the six
flag-writing ones, VF. -/
def Obligations.OnlyDestinationsAndFlagsAreWritten : Prop :=
  ∀ (ins : Instr) (s t : State), exec ins s = .next t → RegsKept (regsWritten ins) s t

/-- R292: no instruction but Cxkk depends on the random byte. -/
def Obligations.OnlyRndReadsTheRandomByte : Prop :=
  ∀ (ins : Instr) (s : State) (b : Byte), (∀ x kk, ins ≠ .rnd x kk) →
    exec ins { s with rnd := b } = andThen (exec ins s) fun t => .next { t with rnd := b }

/-- R31: no instruction but Ex9E, ExA1 and Fx0A depends on the keypad. -/
def Obligations.OnlyKeypadInstructionsReadTheKeys : Prop :=
  ∀ (ins : Instr) (s : State) (keys : Keys),
    (∀ x, ins ≠ .skp x ∧ ins ≠ .sknp x ∧ ins ≠ .ldVxK x) →
    exec ins { s with keys := keys } = andThen (exec ins s) fun t => .next { t with keys := keys }
end

