-- ==== Sys2Proof/Laws/Decode.lean ====
section
/-! SUPPORT. The fields of the encoded words, and the words of the fields
(spec/30_encoding.md R81). -/

namespace Sys2Proof

section Addr

variable (c : Nibble) (nnn : Addr)

@[simp] theorem opClass_encAddr : opClass (encAddr c nnn) = c := by
  apply BitVec.eq_of_toNat_eq
  have := c.isLt
  have := nnn.isLt
  simp only [opClass, encAddr, BitVec.extractLsb'_toNat, BitVec.toNat_append]
  rw [Nat.shiftRight_eq_div_pow, ← Nat.shiftLeft_add_eq_or_of_lt nnn.isLt, Nat.shiftLeft_eq]
  omega

@[simp] theorem fieldNNN_encAddr : fieldNNN (encAddr c nnn) = nnn := by
  apply BitVec.eq_of_toNat_eq
  have := c.isLt
  have := nnn.isLt
  simp only [fieldNNN, encAddr, BitVec.extractLsb'_toNat, BitVec.toNat_append]
  rw [Nat.shiftRight_eq_div_pow, ← Nat.shiftLeft_add_eq_or_of_lt nnn.isLt, Nat.shiftLeft_eq]
  omega

end Addr

section RK

variable (c x : Nibble) (kk : Byte)

theorem toNat_encRK : (encRK c x kk).toNat = c.toNat * 4096 + x.toNat * 256 + kk.toNat := by
  have := kk.isLt
  simp only [encRK, BitVec.toNat_append]
  rw [← Nat.shiftLeft_add_eq_or_of_lt kk.isLt, ← Nat.shiftLeft_add_eq_or_of_lt x.isLt,
    Nat.shiftLeft_eq, Nat.shiftLeft_eq]
  omega

@[simp] theorem opClass_encRK : opClass (encRK c x kk) = c := by
  apply BitVec.eq_of_toNat_eq
  have := c.isLt
  have := x.isLt
  have := kk.isLt
  rw [opClass, BitVec.extractLsb'_toNat, toNat_encRK, Nat.shiftRight_eq_div_pow]
  omega

@[simp] theorem fieldX_encRK : fieldX (encRK c x kk) = x := by
  apply BitVec.eq_of_toNat_eq
  have := c.isLt
  have := x.isLt
  have := kk.isLt
  rw [fieldX, BitVec.extractLsb'_toNat, toNat_encRK, Nat.shiftRight_eq_div_pow]
  omega

@[simp] theorem fieldKK_encRK : fieldKK (encRK c x kk) = kk := by
  apply BitVec.eq_of_toNat_eq
  have := c.isLt
  have := x.isLt
  have := kk.isLt
  rw [fieldKK, BitVec.extractLsb'_toNat, toNat_encRK, Nat.shiftRight_eq_div_pow]
  omega

end RK

section RRN

variable (c x y n : Nibble)

theorem toNat_encRRN :
    (encRRN c x y n).toNat = c.toNat * 4096 + x.toNat * 256 + y.toNat * 16 + n.toNat := by
  have := n.isLt
  simp only [encRRN, BitVec.toNat_append]
  have h : y.toNat <<< 4 ||| n.toNat < 2 ^ 8 := by
    rw [← Nat.shiftLeft_add_eq_or_of_lt n.isLt, Nat.shiftLeft_eq]
    have := y.isLt
    omega
  rw [← Nat.shiftLeft_add_eq_or_of_lt h, ← Nat.shiftLeft_add_eq_or_of_lt x.isLt,
    ← Nat.shiftLeft_add_eq_or_of_lt n.isLt, Nat.shiftLeft_eq, Nat.shiftLeft_eq, Nat.shiftLeft_eq]
  omega

@[simp] theorem opClass_encRRN : opClass (encRRN c x y n) = c := by
  apply BitVec.eq_of_toNat_eq
  have := c.isLt
  have := x.isLt
  have := y.isLt
  have := n.isLt
  rw [opClass, BitVec.extractLsb'_toNat, toNat_encRRN, Nat.shiftRight_eq_div_pow]
  omega

@[simp] theorem fieldX_encRRN : fieldX (encRRN c x y n) = x := by
  apply BitVec.eq_of_toNat_eq
  have := c.isLt
  have := x.isLt
  have := y.isLt
  have := n.isLt
  rw [fieldX, BitVec.extractLsb'_toNat, toNat_encRRN, Nat.shiftRight_eq_div_pow]
  omega

@[simp] theorem fieldY_encRRN : fieldY (encRRN c x y n) = y := by
  apply BitVec.eq_of_toNat_eq
  have := c.isLt
  have := x.isLt
  have := y.isLt
  have := n.isLt
  rw [fieldY, BitVec.extractLsb'_toNat, toNat_encRRN, Nat.shiftRight_eq_div_pow]
  omega

@[simp] theorem fieldN_encRRN : fieldN (encRRN c x y n) = n := by
  apply BitVec.eq_of_toNat_eq
  have := c.isLt
  have := x.isLt
  have := y.isLt
  have := n.isLt
  rw [fieldN, BitVec.extractLsb'_toNat, toNat_encRRN, Nat.shiftRight_eq_div_pow]
  omega

end RRN

/-! ### A word is its fields put together -/

theorem encAddr_fields (w : Word) : encAddr (opClass w) (fieldNNN w) = w := by
  apply BitVec.eq_of_toNat_eq
  have := w.isLt
  simp only [encAddr, BitVec.toNat_append]
  rw [← Nat.shiftLeft_add_eq_or_of_lt (fieldNNN w).isLt, Nat.shiftLeft_eq]
  simp only [opClass, fieldNNN, BitVec.extractLsb'_toNat, Nat.shiftRight_eq_div_pow]
  omega

theorem encRK_fields (w : Word) : encRK (opClass w) (fieldX w) (fieldKK w) = w := by
  apply BitVec.eq_of_toNat_eq
  have := w.isLt
  rw [toNat_encRK]
  simp only [opClass, fieldX, fieldKK, BitVec.extractLsb'_toNat, Nat.shiftRight_eq_div_pow]
  omega

theorem encRRN_fields (w : Word) :
    encRRN (opClass w) (fieldX w) (fieldY w) (fieldN w) = w := by
  apply BitVec.eq_of_toNat_eq
  have := w.isLt
  rw [toNat_encRRN]
  simp only [opClass, fieldX, fieldY, fieldN, BitVec.extractLsb'_toNat,
    Nat.shiftRight_eq_div_pow]
  omega

/-! ### Masks -/

/-- `AND` of put-together words is taken field by field. -/
theorem append_and_append {n m : Nat} (a b : BitVec n) (c d : BitVec m) :
    (a ++ c) &&& (b ++ d) = (a &&& b) ++ (c &&& d) := by
  apply BitVec.eq_of_getLsbD_eq
  intro i hi
  simp only [BitVec.getLsbD_and, BitVec.getLsbD_append]
  split <;> simp

theorem encAddr_and (c d : Nibble) (p q : Addr) :
    encAddr c p &&& encAddr d q = encAddr (c &&& d) (p &&& q) := append_and_append ..

theorem encRK_and (c d x y : Nibble) (p q : Byte) :
    encRK c x p &&& encRK d y q = encRK (c &&& d) (x &&& y) (p &&& q) :=
  (append_and_append (c ++ x) (d ++ y) p q).trans
    (congrArg (· ++ (p &&& q)) (append_and_append c d x y))

theorem encRRN_and (c d x z y u n m : Nibble) :
    encRRN c x y n &&& encRRN d z u m = encRRN (c &&& d) (x &&& z) (y &&& u) (n &&& m) :=
  (append_and_append (c ++ x) (d ++ z) (y ++ n) (u ++ m)).trans
    (congrArg₂ (· ++ ·) (append_and_append c d x z) (append_and_append y u n m))

theorem and_zeros {w : Nat} (b : BitVec w) : b &&& 0 = 0 := BitVec.and_zero

theorem nibble_and_ones (c : Nibble) : c &&& 0xF = c := BitVec.and_allOnes

theorem byte_and_ones (b : Byte) : b &&& 0xFF = b := BitVec.and_allOnes

/-- The mask of a class selected by the top nibble alone. -/
theorem encAddr_mask (c : Nibble) (nnn : Addr) :
    encAddr c nnn &&& (0xF000 : Word) = encAddr c 0 := by
  rw [show (0xF000 : Word) = encAddr 0xF 0 by decide, encAddr_and, nibble_and_ones, and_zeros]

theorem encRK_mask (c x : Nibble) (kk : Byte) :
    encRK c x kk &&& (0xF000 : Word) = encRK c 0 0 := by
  rw [show (0xF000 : Word) = encRK 0xF 0 0 by decide, encRK_and, nibble_and_ones,
    and_zeros, and_zeros]

theorem encRK_mask_low (c x : Nibble) (kk : Byte) :
    encRK c x kk &&& (0xF0FF : Word) = encRK c 0 kk := by
  rw [show (0xF0FF : Word) = encRK 0xF 0 0xFF by decide, encRK_and, nibble_and_ones,
    and_zeros, byte_and_ones]

theorem encRRN_mask (c x y n : Nibble) :
    encRRN c x y n &&& (0xF000 : Word) = encRRN c 0 0 0 := by
  rw [show (0xF000 : Word) = encRRN 0xF 0 0 0 by decide, encRRN_and, nibble_and_ones,
    and_zeros, and_zeros, and_zeros]

theorem encRRN_mask_low (c x y n : Nibble) :
    encRRN c x y n &&& (0xF00F : Word) = encRRN c 0 0 n := by
  rw [show (0xF00F : Word) = encRRN 0xF 0 0 0xF by decide, encRRN_and, nibble_and_ones,
    and_zeros, and_zeros, nibble_and_ones]

end Sys2Proof
end

