-- ==== Sys2Proof/Laws/State.lean ====
section
/-! SUPPORT. One lemma per field per named update of the state (Machine/Ops.lean), each true by
`rfl`, so that no proof unfolds a record update. -/

namespace Sys2Proof.Machine

section Setreg

variable (s : State) (x : Nibble) (b : Byte)

@[simp] theorem State.setReg_config : (s.setReg x b).config = s.config := rfl
@[simp] theorem State.setReg_v : (s.setReg x b).v = s.v.set x.toNat b x.isLt := rfl
@[simp] theorem State.setReg_i : (s.setReg x b).i = s.i := rfl
@[simp] theorem State.setReg_pc : (s.setReg x b).pc = s.pc := rfl
@[simp] theorem State.setReg_sp : (s.setReg x b).sp = s.sp := rfl
@[simp] theorem State.setReg_stack : (s.setReg x b).stack = s.stack := rfl
@[simp] theorem State.setReg_dt : (s.setReg x b).dt = s.dt := rfl
@[simp] theorem State.setReg_st : (s.setReg x b).st = s.st := rfl
@[simp] theorem State.setReg_mem : (s.setReg x b).mem = s.mem := rfl
@[simp] theorem State.setReg_fb : (s.setReg x b).fb = s.fb := rfl
@[simp] theorem State.setReg_keys : (s.setReg x b).keys = s.keys := rfl
@[simp] theorem State.setReg_rnd : (s.setReg x b).rnd = s.rnd := rfl
@[simp] theorem State.setReg_boot : (s.setReg x b).boot = s.boot := rfl
@[simp] theorem State.setReg_host : (s.setReg x b).host = s.host := rfl
@[simp] theorem State.setReg_draws : (s.setReg x b).draws = s.draws := rfl
@[simp] theorem State.setReg_result : (s.setReg x b).result = s.result := rfl
@[simp] theorem State.setReg_refusal : (s.setReg x b).refusal = s.refusal := rfl

end Setreg

section Seti

variable (s : State) (w : Word)

@[simp] theorem State.setI_config : (s.setI w).config = s.config := rfl
@[simp] theorem State.setI_v : (s.setI w).v = s.v := rfl
@[simp] theorem State.setI_i : (s.setI w).i = w := rfl
@[simp] theorem State.setI_pc : (s.setI w).pc = s.pc := rfl
@[simp] theorem State.setI_sp : (s.setI w).sp = s.sp := rfl
@[simp] theorem State.setI_stack : (s.setI w).stack = s.stack := rfl
@[simp] theorem State.setI_dt : (s.setI w).dt = s.dt := rfl
@[simp] theorem State.setI_st : (s.setI w).st = s.st := rfl
@[simp] theorem State.setI_mem : (s.setI w).mem = s.mem := rfl
@[simp] theorem State.setI_fb : (s.setI w).fb = s.fb := rfl
@[simp] theorem State.setI_keys : (s.setI w).keys = s.keys := rfl
@[simp] theorem State.setI_rnd : (s.setI w).rnd = s.rnd := rfl
@[simp] theorem State.setI_boot : (s.setI w).boot = s.boot := rfl
@[simp] theorem State.setI_host : (s.setI w).host = s.host := rfl
@[simp] theorem State.setI_draws : (s.setI w).draws = s.draws := rfl
@[simp] theorem State.setI_result : (s.setI w).result = s.result := rfl
@[simp] theorem State.setI_refusal : (s.setI w).refusal = s.refusal := rfl

end Seti

section Setpc

variable (s : State) (w : Word)

@[simp] theorem State.setPc_config : (s.setPc w).config = s.config := rfl
@[simp] theorem State.setPc_v : (s.setPc w).v = s.v := rfl
@[simp] theorem State.setPc_i : (s.setPc w).i = s.i := rfl
@[simp] theorem State.setPc_pc : (s.setPc w).pc = w := rfl
@[simp] theorem State.setPc_sp : (s.setPc w).sp = s.sp := rfl
@[simp] theorem State.setPc_stack : (s.setPc w).stack = s.stack := rfl
@[simp] theorem State.setPc_dt : (s.setPc w).dt = s.dt := rfl
@[simp] theorem State.setPc_st : (s.setPc w).st = s.st := rfl
@[simp] theorem State.setPc_mem : (s.setPc w).mem = s.mem := rfl
@[simp] theorem State.setPc_fb : (s.setPc w).fb = s.fb := rfl
@[simp] theorem State.setPc_keys : (s.setPc w).keys = s.keys := rfl
@[simp] theorem State.setPc_rnd : (s.setPc w).rnd = s.rnd := rfl
@[simp] theorem State.setPc_boot : (s.setPc w).boot = s.boot := rfl
@[simp] theorem State.setPc_host : (s.setPc w).host = s.host := rfl
@[simp] theorem State.setPc_draws : (s.setPc w).draws = s.draws := rfl
@[simp] theorem State.setPc_result : (s.setPc w).result = s.result := rfl
@[simp] theorem State.setPc_refusal : (s.setPc w).refusal = s.refusal := rfl

end Setpc

section Setdt

variable (s : State) (b : Byte)

@[simp] theorem State.setDt_config : (s.setDt b).config = s.config := rfl
@[simp] theorem State.setDt_v : (s.setDt b).v = s.v := rfl
@[simp] theorem State.setDt_i : (s.setDt b).i = s.i := rfl
@[simp] theorem State.setDt_pc : (s.setDt b).pc = s.pc := rfl
@[simp] theorem State.setDt_sp : (s.setDt b).sp = s.sp := rfl
@[simp] theorem State.setDt_stack : (s.setDt b).stack = s.stack := rfl
@[simp] theorem State.setDt_dt : (s.setDt b).dt = b := rfl
@[simp] theorem State.setDt_st : (s.setDt b).st = s.st := rfl
@[simp] theorem State.setDt_mem : (s.setDt b).mem = s.mem := rfl
@[simp] theorem State.setDt_fb : (s.setDt b).fb = s.fb := rfl
@[simp] theorem State.setDt_keys : (s.setDt b).keys = s.keys := rfl
@[simp] theorem State.setDt_rnd : (s.setDt b).rnd = s.rnd := rfl
@[simp] theorem State.setDt_boot : (s.setDt b).boot = s.boot := rfl
@[simp] theorem State.setDt_host : (s.setDt b).host = s.host := rfl
@[simp] theorem State.setDt_draws : (s.setDt b).draws = s.draws := rfl
@[simp] theorem State.setDt_result : (s.setDt b).result = s.result := rfl
@[simp] theorem State.setDt_refusal : (s.setDt b).refusal = s.refusal := rfl

end Setdt

section Setst

variable (s : State) (b : Byte)

@[simp] theorem State.setSt_config : (s.setSt b).config = s.config := rfl
@[simp] theorem State.setSt_v : (s.setSt b).v = s.v := rfl
@[simp] theorem State.setSt_i : (s.setSt b).i = s.i := rfl
@[simp] theorem State.setSt_pc : (s.setSt b).pc = s.pc := rfl
@[simp] theorem State.setSt_sp : (s.setSt b).sp = s.sp := rfl
@[simp] theorem State.setSt_stack : (s.setSt b).stack = s.stack := rfl
@[simp] theorem State.setSt_dt : (s.setSt b).dt = s.dt := rfl
@[simp] theorem State.setSt_st : (s.setSt b).st = b := rfl
@[simp] theorem State.setSt_mem : (s.setSt b).mem = s.mem := rfl
@[simp] theorem State.setSt_fb : (s.setSt b).fb = s.fb := rfl
@[simp] theorem State.setSt_keys : (s.setSt b).keys = s.keys := rfl
@[simp] theorem State.setSt_rnd : (s.setSt b).rnd = s.rnd := rfl
@[simp] theorem State.setSt_boot : (s.setSt b).boot = s.boot := rfl
@[simp] theorem State.setSt_host : (s.setSt b).host = s.host := rfl
@[simp] theorem State.setSt_draws : (s.setSt b).draws = s.draws := rfl
@[simp] theorem State.setSt_result : (s.setSt b).result = s.result := rfl
@[simp] theorem State.setSt_refusal : (s.setSt b).refusal = s.refusal := rfl

end Setst

section Setframes

variable (s : State) (n : Fin 17) (f : Vector Word 16)

@[simp] theorem State.setFrames_config : (s.setFrames n f).config = s.config := rfl
@[simp] theorem State.setFrames_v : (s.setFrames n f).v = s.v := rfl
@[simp] theorem State.setFrames_i : (s.setFrames n f).i = s.i := rfl
@[simp] theorem State.setFrames_pc : (s.setFrames n f).pc = s.pc := rfl
@[simp] theorem State.setFrames_sp : (s.setFrames n f).sp = n := rfl
@[simp] theorem State.setFrames_stack : (s.setFrames n f).stack = f := rfl
@[simp] theorem State.setFrames_dt : (s.setFrames n f).dt = s.dt := rfl
@[simp] theorem State.setFrames_st : (s.setFrames n f).st = s.st := rfl
@[simp] theorem State.setFrames_mem : (s.setFrames n f).mem = s.mem := rfl
@[simp] theorem State.setFrames_fb : (s.setFrames n f).fb = s.fb := rfl
@[simp] theorem State.setFrames_keys : (s.setFrames n f).keys = s.keys := rfl
@[simp] theorem State.setFrames_rnd : (s.setFrames n f).rnd = s.rnd := rfl
@[simp] theorem State.setFrames_boot : (s.setFrames n f).boot = s.boot := rfl
@[simp] theorem State.setFrames_host : (s.setFrames n f).host = s.host := rfl
@[simp] theorem State.setFrames_draws : (s.setFrames n f).draws = s.draws := rfl
@[simp] theorem State.setFrames_result : (s.setFrames n f).result = s.result := rfl
@[simp] theorem State.setFrames_refusal : (s.setFrames n f).refusal = s.refusal := rfl

end Setframes

section Setbyte

variable (s : State) (a : Nat) (b : Byte)

@[simp] theorem State.setByte_config : (s.setByte a b).config = s.config := rfl
@[simp] theorem State.setByte_v : (s.setByte a b).v = s.v := rfl
@[simp] theorem State.setByte_i : (s.setByte a b).i = s.i := rfl
@[simp] theorem State.setByte_pc : (s.setByte a b).pc = s.pc := rfl
@[simp] theorem State.setByte_sp : (s.setByte a b).sp = s.sp := rfl
@[simp] theorem State.setByte_stack : (s.setByte a b).stack = s.stack := rfl
@[simp] theorem State.setByte_dt : (s.setByte a b).dt = s.dt := rfl
@[simp] theorem State.setByte_st : (s.setByte a b).st = s.st := rfl
@[simp] theorem State.setByte_mem : (s.setByte a b).mem = writeCell s.config.font s.mem a b := rfl
@[simp] theorem State.setByte_fb : (s.setByte a b).fb = s.fb := rfl
@[simp] theorem State.setByte_keys : (s.setByte a b).keys = s.keys := rfl
@[simp] theorem State.setByte_rnd : (s.setByte a b).rnd = s.rnd := rfl
@[simp] theorem State.setByte_boot : (s.setByte a b).boot = s.boot := rfl
@[simp] theorem State.setByte_host : (s.setByte a b).host = s.host := rfl
@[simp] theorem State.setByte_draws : (s.setByte a b).draws = s.draws := rfl
@[simp] theorem State.setByte_result : (s.setByte a b).result = s.result := rfl
@[simp] theorem State.setByte_refusal : (s.setByte a b).refusal = s.refusal := rfl

end Setbyte

section Setfb

variable (s : State) (f : Framebuffer)

@[simp] theorem State.setFb_config : (s.setFb f).config = s.config := rfl
@[simp] theorem State.setFb_v : (s.setFb f).v = s.v := rfl
@[simp] theorem State.setFb_i : (s.setFb f).i = s.i := rfl
@[simp] theorem State.setFb_pc : (s.setFb f).pc = s.pc := rfl
@[simp] theorem State.setFb_sp : (s.setFb f).sp = s.sp := rfl
@[simp] theorem State.setFb_stack : (s.setFb f).stack = s.stack := rfl
@[simp] theorem State.setFb_dt : (s.setFb f).dt = s.dt := rfl
@[simp] theorem State.setFb_st : (s.setFb f).st = s.st := rfl
@[simp] theorem State.setFb_mem : (s.setFb f).mem = s.mem := rfl
@[simp] theorem State.setFb_fb : (s.setFb f).fb = f := rfl
@[simp] theorem State.setFb_keys : (s.setFb f).keys = s.keys := rfl
@[simp] theorem State.setFb_rnd : (s.setFb f).rnd = s.rnd := rfl
@[simp] theorem State.setFb_boot : (s.setFb f).boot = s.boot := rfl
@[simp] theorem State.setFb_host : (s.setFb f).host = s.host := rfl
@[simp] theorem State.setFb_draws : (s.setFb f).draws = s.draws := rfl
@[simp] theorem State.setFb_result : (s.setFb f).result = s.result := rfl
@[simp] theorem State.setFb_refusal : (s.setFb f).refusal = s.refusal := rfl

end Setfb

section Setloaded

variable (s : State) 

@[simp] theorem State.setLoaded_config : s.setLoaded.config = s.config := rfl
@[simp] theorem State.setLoaded_v : s.setLoaded.v = s.v := rfl
@[simp] theorem State.setLoaded_i : s.setLoaded.i = s.i := rfl
@[simp] theorem State.setLoaded_pc : s.setLoaded.pc = s.pc := rfl
@[simp] theorem State.setLoaded_sp : s.setLoaded.sp = s.sp := rfl
@[simp] theorem State.setLoaded_stack : s.setLoaded.stack = s.stack := rfl
@[simp] theorem State.setLoaded_dt : s.setLoaded.dt = s.dt := rfl
@[simp] theorem State.setLoaded_st : s.setLoaded.st = s.st := rfl
@[simp] theorem State.setLoaded_mem : s.setLoaded.mem = s.mem := rfl
@[simp] theorem State.setLoaded_fb : s.setLoaded.fb = s.fb := rfl
@[simp] theorem State.setLoaded_keys : s.setLoaded.keys = s.keys := rfl
@[simp] theorem State.setLoaded_rnd : s.setLoaded.rnd = s.rnd := rfl
@[simp] theorem State.setLoaded_boot : s.setLoaded.boot = .loaded := rfl
@[simp] theorem State.setLoaded_host : s.setLoaded.host = s.host := rfl
@[simp] theorem State.setLoaded_draws : s.setLoaded.draws = s.draws := rfl
@[simp] theorem State.setLoaded_result : s.setLoaded.result = .ok := rfl
@[simp] theorem State.setLoaded_refusal : s.setLoaded.refusal = s.refusal := rfl

end Setloaded

section Takeerror

variable (s : State) (e : Fault)

@[simp] theorem State.takeError_config : (s.takeError e).config = s.config := rfl
@[simp] theorem State.takeError_v : (s.takeError e).v = s.v := rfl
@[simp] theorem State.takeError_i : (s.takeError e).i = s.i := rfl
@[simp] theorem State.takeError_pc : (s.takeError e).pc = s.pc := rfl
@[simp] theorem State.takeError_sp : (s.takeError e).sp = s.sp := rfl
@[simp] theorem State.takeError_stack : (s.takeError e).stack = s.stack := rfl
@[simp] theorem State.takeError_dt : (s.takeError e).dt = s.dt := rfl
@[simp] theorem State.takeError_st : (s.takeError e).st = s.st := rfl
@[simp] theorem State.takeError_mem : (s.takeError e).mem = s.mem := rfl
@[simp] theorem State.takeError_fb : (s.takeError e).fb = s.fb := rfl
@[simp] theorem State.takeError_keys : (s.takeError e).keys = s.keys := rfl
@[simp] theorem State.takeError_rnd : (s.takeError e).rnd = s.rnd := rfl
@[simp] theorem State.takeError_boot : (s.takeError e).boot = s.boot := rfl
@[simp] theorem State.takeError_host : (s.takeError e).host = s.host := rfl
@[simp] theorem State.takeError_draws : (s.takeError e).draws = s.draws := rfl
@[simp] theorem State.takeError_result : (s.takeError e).result = .err e := rfl
@[simp] theorem State.takeError_refusal : (s.takeError e).refusal = s.refusal := rfl

end Takeerror

section Setrefusal

variable (s : State) (r : Refusal)

@[simp] theorem State.setRefusal_config : (s.setRefusal r).config = s.config := rfl
@[simp] theorem State.setRefusal_v : (s.setRefusal r).v = s.v := rfl
@[simp] theorem State.setRefusal_i : (s.setRefusal r).i = s.i := rfl
@[simp] theorem State.setRefusal_pc : (s.setRefusal r).pc = s.pc := rfl
@[simp] theorem State.setRefusal_sp : (s.setRefusal r).sp = s.sp := rfl
@[simp] theorem State.setRefusal_stack : (s.setRefusal r).stack = s.stack := rfl
@[simp] theorem State.setRefusal_dt : (s.setRefusal r).dt = s.dt := rfl
@[simp] theorem State.setRefusal_st : (s.setRefusal r).st = s.st := rfl
@[simp] theorem State.setRefusal_mem : (s.setRefusal r).mem = s.mem := rfl
@[simp] theorem State.setRefusal_fb : (s.setRefusal r).fb = s.fb := rfl
@[simp] theorem State.setRefusal_keys : (s.setRefusal r).keys = s.keys := rfl
@[simp] theorem State.setRefusal_rnd : (s.setRefusal r).rnd = s.rnd := rfl
@[simp] theorem State.setRefusal_boot : (s.setRefusal r).boot = s.boot := rfl
@[simp] theorem State.setRefusal_host : (s.setRefusal r).host = s.host := rfl
@[simp] theorem State.setRefusal_draws : (s.setRefusal r).draws = s.draws := rfl
@[simp] theorem State.setRefusal_result : (s.setRefusal r).result = s.result := rfl
@[simp] theorem State.setRefusal_refusal : (s.setRefusal r).refusal = some r := rfl

end Setrefusal

section Begincycle

variable (s : State) (k : Keys) (r : Byte)

@[simp] theorem State.beginCycle_config : (s.beginCycle k r).config = s.config := rfl
@[simp] theorem State.beginCycle_v : (s.beginCycle k r).v = s.v := rfl
@[simp] theorem State.beginCycle_i : (s.beginCycle k r).i = s.i := rfl
@[simp] theorem State.beginCycle_pc : (s.beginCycle k r).pc = s.pc := rfl
@[simp] theorem State.beginCycle_sp : (s.beginCycle k r).sp = s.sp := rfl
@[simp] theorem State.beginCycle_stack : (s.beginCycle k r).stack = s.stack := rfl
@[simp] theorem State.beginCycle_dt : (s.beginCycle k r).dt = s.dt := rfl
@[simp] theorem State.beginCycle_st : (s.beginCycle k r).st = s.st := rfl
@[simp] theorem State.beginCycle_mem : (s.beginCycle k r).mem = s.mem := rfl
@[simp] theorem State.beginCycle_fb : (s.beginCycle k r).fb = s.fb := rfl
@[simp] theorem State.beginCycle_keys : (s.beginCycle k r).keys = k := rfl
@[simp] theorem State.beginCycle_rnd : (s.beginCycle k r).rnd = r := rfl
@[simp] theorem State.beginCycle_boot : (s.beginCycle k r).boot = .running := rfl
@[simp] theorem State.beginCycle_host : (s.beginCycle k r).host = s.host := rfl
@[simp] theorem State.beginCycle_draws : (s.beginCycle k r).draws = s.draws := rfl
@[simp] theorem State.beginCycle_result : (s.beginCycle k r).result = .ok := rfl
@[simp] theorem State.beginCycle_refusal : (s.beginCycle k r).refusal = s.refusal := rfl

end Begincycle

section Advance

variable (s : State) 

@[simp] theorem State.advance_config : s.advance.config = s.config := rfl
@[simp] theorem State.advance_v : s.advance.v = s.v := rfl
@[simp] theorem State.advance_i : s.advance.i = s.i := rfl
@[simp] theorem State.advance_pc : s.advance.pc = s.pc + 2 := rfl
@[simp] theorem State.advance_sp : s.advance.sp = s.sp := rfl
@[simp] theorem State.advance_stack : s.advance.stack = s.stack := rfl
@[simp] theorem State.advance_dt : s.advance.dt = s.dt := rfl
@[simp] theorem State.advance_st : s.advance.st = s.st := rfl
@[simp] theorem State.advance_mem : s.advance.mem = s.mem := rfl
@[simp] theorem State.advance_fb : s.advance.fb = s.fb := rfl
@[simp] theorem State.advance_keys : s.advance.keys = s.keys := rfl
@[simp] theorem State.advance_rnd : s.advance.rnd = s.rnd := rfl
@[simp] theorem State.advance_boot : s.advance.boot = s.boot := rfl
@[simp] theorem State.advance_host : s.advance.host = s.host := rfl
@[simp] theorem State.advance_draws : s.advance.draws = s.draws := rfl
@[simp] theorem State.advance_result : s.advance.result = s.result := rfl
@[simp] theorem State.advance_refusal : s.advance.refusal = s.refusal := rfl

end Advance

section Skipif

variable (s : State) (c : Bool)

@[simp] theorem State.skipIf_config : (s.skipIf c).config = s.config := rfl
@[simp] theorem State.skipIf_v : (s.skipIf c).v = s.v := rfl
@[simp] theorem State.skipIf_i : (s.skipIf c).i = s.i := rfl
@[simp] theorem State.skipIf_pc : (s.skipIf c).pc = if c then s.pc + 4 else s.pc + 2 := rfl
@[simp] theorem State.skipIf_sp : (s.skipIf c).sp = s.sp := rfl
@[simp] theorem State.skipIf_stack : (s.skipIf c).stack = s.stack := rfl
@[simp] theorem State.skipIf_dt : (s.skipIf c).dt = s.dt := rfl
@[simp] theorem State.skipIf_st : (s.skipIf c).st = s.st := rfl
@[simp] theorem State.skipIf_mem : (s.skipIf c).mem = s.mem := rfl
@[simp] theorem State.skipIf_fb : (s.skipIf c).fb = s.fb := rfl
@[simp] theorem State.skipIf_keys : (s.skipIf c).keys = s.keys := rfl
@[simp] theorem State.skipIf_rnd : (s.skipIf c).rnd = s.rnd := rfl
@[simp] theorem State.skipIf_boot : (s.skipIf c).boot = s.boot := rfl
@[simp] theorem State.skipIf_host : (s.skipIf c).host = s.host := rfl
@[simp] theorem State.skipIf_draws : (s.skipIf c).draws = s.draws := rfl
@[simp] theorem State.skipIf_result : (s.skipIf c).result = s.result := rfl
@[simp] theorem State.skipIf_refusal : (s.skipIf c).refusal = s.refusal := rfl

end Skipif

section Tick

variable (s : State) 

@[simp] theorem State.tick_config : s.tick.config = s.config := rfl
@[simp] theorem State.tick_v : s.tick.v = s.v := rfl
@[simp] theorem State.tick_i : s.tick.i = s.i := rfl
@[simp] theorem State.tick_pc : s.tick.pc = s.pc := rfl
@[simp] theorem State.tick_sp : s.tick.sp = s.sp := rfl
@[simp] theorem State.tick_stack : s.tick.stack = s.stack := rfl
@[simp] theorem State.tick_dt : s.tick.dt = countDown s.dt := rfl
@[simp] theorem State.tick_st : s.tick.st = countDown s.st := rfl
@[simp] theorem State.tick_mem : s.tick.mem = s.mem := rfl
@[simp] theorem State.tick_fb : s.tick.fb = s.fb := rfl
@[simp] theorem State.tick_keys : s.tick.keys = s.keys := rfl
@[simp] theorem State.tick_rnd : s.tick.rnd = s.rnd := rfl
@[simp] theorem State.tick_boot : s.tick.boot = s.boot := rfl
@[simp] theorem State.tick_host : s.tick.host = s.host := rfl
@[simp] theorem State.tick_draws : s.tick.draws = s.draws := rfl
@[simp] theorem State.tick_result : s.tick.result = s.result := rfl
@[simp] theorem State.tick_refusal : s.tick.refusal = s.refusal := rfl

end Tick

section Ticks

variable (s : State) (k : Nat)

@[simp] theorem State.ticks_config : (s.ticks k).config = s.config := rfl
@[simp] theorem State.ticks_v : (s.ticks k).v = s.v := rfl
@[simp] theorem State.ticks_i : (s.ticks k).i = s.i := rfl
@[simp] theorem State.ticks_pc : (s.ticks k).pc = s.pc := rfl
@[simp] theorem State.ticks_sp : (s.ticks k).sp = s.sp := rfl
@[simp] theorem State.ticks_stack : (s.ticks k).stack = s.stack := rfl
@[simp] theorem State.ticks_dt : (s.ticks k).dt = countDownBy k s.dt := rfl
@[simp] theorem State.ticks_st : (s.ticks k).st = countDownBy k s.st := rfl
@[simp] theorem State.ticks_mem : (s.ticks k).mem = s.mem := rfl
@[simp] theorem State.ticks_fb : (s.ticks k).fb = s.fb := rfl
@[simp] theorem State.ticks_keys : (s.ticks k).keys = s.keys := rfl
@[simp] theorem State.ticks_rnd : (s.ticks k).rnd = s.rnd := rfl
@[simp] theorem State.ticks_boot : (s.ticks k).boot = s.boot := rfl
@[simp] theorem State.ticks_host : (s.ticks k).host = s.host := rfl
@[simp] theorem State.ticks_draws : (s.ticks k).draws = s.draws := rfl
@[simp] theorem State.ticks_result : (s.ticks k).result = s.result := rfl
@[simp] theorem State.ticks_refusal : (s.ticks k).refusal = s.refusal := rfl

end Ticks

end Sys2Proof.Machine
end

