-- ==== Sys2Proof/Laws/Memory.lean ====
section
/-! SUPPORT. The laws of memory as a list of cells: a read after a write, and the canonical form,
which every memory operation keeps (spec/20_memory.md R52, R53). -/

namespace Sys2Proof.Machine

/-- The first cell decides, or the rest of the list. -/
theorem lookup_cons_eq (c e : Nat) (w : Byte) (m : List Host.Cell) :
    List.lookup c ((e, w) :: m) = if c = e then some w else m.lookup c := by
  by_cases h : c = e
  · simp [h]
  · have h' : (c == e) = false := by simpa using h
    simp [List.lookup, h, h']

theorem lookup_insertCell (a c : Nat) (b : Byte) (m : List Host.Cell) :
    (insertCell a b m).lookup c = if c = a then some b else m.lookup c := by
  induction m with
  | nil => simp only [insertCell, lookup_cons_eq]
  | cons d m ih =>
    obtain ⟨e, w⟩ := d
    simp only [insertCell]
    split
    · simp only [lookup_cons_eq]
    · split
      · rename_i h1 h2
        have h2 : a = e := h2
        subst h2
        simp only [lookup_cons_eq]
        split <;> rfl
      · rename_i h1 h2
        have h2 : a ≠ e := h2
        simp only [lookup_cons_eq, ih]
        by_cases h : c = e
        · subst h; simp [Ne.symm h2]
        · simp [h]

theorem lookup_eraseCell (a c : Nat) (m : List Host.Cell) :
    (eraseCell a m).lookup c = if c = a then none else m.lookup c := by
  induction m with
  | nil => simp [eraseCell]
  | cons d m ih =>
    obtain ⟨e, w⟩ := d
    simp only [eraseCell] at ih ⊢
    by_cases h : e = a
    · subst h
      by_cases hc : c = e
      · subst hc; simpa using ih
      · simp [lookup_cons_eq, hc, ih]
    · by_cases hc : c = e
      · subst hc; simp [h]
      · simp [lookup_cons_eq, h, hc, ih]

/-- A read after a write: the byte written at its address, every other address as before. -/
theorem readCell_writeCell (font : Font) (m : List Host.Cell) (a c : Nat) (b : Byte) :
    readCell font (writeCell font m a b) c = if c = a then b else readCell font m c := by
  unfold readCell writeCell
  split
  · rename_i h
    rw [lookup_eraseCell]
    by_cases hc : c = a
    · subst hc; simp [h]
    · simp [hc]
  · rw [lookup_insertCell]
    by_cases hc : c = a <;> simp [hc]

/-- What the canonical form says. -/
theorem memWf_iff (font : Font) (m : List Host.Cell) :
    memWf font m = true ↔
      m.Pairwise (fun c d => c.1 < d.1) ∧ ∀ c ∈ m, c.1 < memSize ∧ c.2 ≠ initialByte font c.1 := by
  simp [memWf]

theorem mem_insertCell {a : Nat} {b : Byte} {m : List Host.Cell} {c : Host.Cell}
    (h : c ∈ insertCell a b m) : c = (a, b) ∨ c ∈ m := by
  induction m with
  | nil => simpa [insertCell] using h
  | cons d m ih =>
    simp only [insertCell] at h
    split at h
    · simpa using h
    · split at h
      · rcases List.mem_cons.1 h with h | h
        · exact .inl h
        · exact .inr (List.mem_cons_of_mem _ h)
      · rcases List.mem_cons.1 h with h | h
        · exact .inr (h ▸ List.mem_cons_self)
        · exact (ih h).imp_right (List.mem_cons_of_mem _)

theorem pairwise_insertCell (a : Nat) (b : Byte) {m : List Host.Cell}
    (h : m.Pairwise fun c d => c.1 < d.1) :
    (insertCell a b m).Pairwise fun c d => c.1 < d.1 := by
  induction m with
  | nil => simp [insertCell]
  | cons d m ih =>
    rw [List.pairwise_cons] at h
    simp only [insertCell]
    split
    · rename_i hlt
      refine List.pairwise_cons.2 ⟨fun c hc => ?_, List.pairwise_cons.2 h⟩
      rcases List.mem_cons.1 hc with rfl | hc
      · exact hlt
      · exact lt_trans hlt (h.1 c hc)
    · split
      · rename_i heq
        refine List.pairwise_cons.2 ⟨fun c hc => ?_, h.2⟩
        have := h.1 c hc
        simpa [heq] using this
      · rename_i h1 h2
        refine List.pairwise_cons.2 ⟨fun c hc => ?_, ih h.2⟩
        rcases mem_insertCell hc with rfl | hc
        · show d.1 < a
          omega
        · exact h.1 c hc

/-- Every write inside the address space keeps the canonical form. -/
theorem writeCell_wf {font : Font} {m : List Host.Cell} (h : memWf font m = true) {a : Nat}
    (ha : a < memSize) (b : Byte) : memWf font (writeCell font m a b) = true := by
  rw [memWf_iff] at h ⊢
  unfold writeCell
  split
  · exact ⟨h.1.filter _, fun c hc => h.2 c (List.mem_of_mem_filter hc)⟩
  · rename_i hb
    refine ⟨pairwise_insertCell a b h.1, fun c hc => ?_⟩
    rcases mem_insertCell hc with rfl | hc
    · exact ⟨ha, hb⟩
    · exact h.2 c hc

/-- `MEM[c]` after `MEM[a] <- b`. -/
theorem State.byteAt_setByte (s : State) (a c : Nat) (b : Byte) :
    (s.setByte a b).byteAt c = if c = a then b else s.byteAt c :=
  readCell_writeCell ..

theorem State.setByte_memWf {s : State} (h : s.memWf = true) {a : Nat} (ha : a < memSize)
    (b : Byte) : (s.setByte a b).memWf = true :=
  writeCell_wf h ha b

/-- Equal bytes everywhere, from equal fonts and equal cells. -/
theorem State.byteAt_congr {s t : State} (hc : t.config = s.config) (hm : t.mem = s.mem) (a : Nat) :
    t.byteAt a = s.byteAt a := by
  simp [State.byteAt, hc, hm]

end Sys2Proof.Machine
end

