-- ==== Sys2Proof/Laws/Ops.lean ====
section
/-! SUPPORT. What each shared operation of the machine can do, said once: the register file, the
block operations, the call stack, the flag-writing operations and the operand forms. -/

namespace Sys2Proof.Machine

/-! ### Results -/

@[simp] theorem andThen_next {α β : Type} (a : α) (f : α → Result β) :
    andThen (.next a) f = f a := rfl

@[simp] theorem andThen_fault {α β : Type} (e : Fault) (f : α → Result β) :
    andThen (.fault e) f = .fault e := rfl

@[simp] theorem andThen_refused {α β : Type} (r : Refusal) (f : α → Result β) :
    andThen (.refused r) f = .refused r := rfl

/-- A sequence answers a next state exactly when both parts do. -/
theorem andThen_eq_next {α β : Type} {o : Result α} {f : α → Result β} {b : β} :
    andThen o f = .next b ↔ ∃ a, o = .next a ∧ f a = .next b := by
  cases o <;> simp [andThen]

@[simp] theorem raise_ne_next {α : Type} (e : Fault) (a : α) : raise e ≠ .next a := nofun

@[simp] theorem refuse_ne_next {α : Type} (r : Refusal) (a : α) : refuse r ≠ .next a := nofun

/-! ### Registers -/

/-- `V[y]` after `V[x] <- b`. -/
theorem State.reg_setReg (s : State) (x y : Nibble) (b : Byte) :
    (s.setReg x b).reg y = if y = x then b else s.reg y := by
  simp only [State.reg, State.setReg, Vector.getElem_set, BitVec.toNat_inj, eq_comm]

@[simp] theorem State.reg_setReg_self (s : State) (x : Nibble) (b : Byte) :
    (s.setReg x b).reg x = b := by
  simp [State.reg_setReg]

theorem State.reg_setReg_ne {s : State} {x y : Nibble} (b : Byte) (h : y ≠ x) :
    (s.setReg x b).reg y = s.reg y := by
  simp [State.reg_setReg, h]

/-- Registers read the same wherever the file is the same. -/
theorem State.reg_congr {s t : State} (h : t.v = s.v) (x : Nibble) : t.reg x = s.reg x := by
  simp [State.reg, h]

/-- A load of successive registers writes nothing but the register file. -/
theorem State.setRegs_eq (s : State) (k : Nat) (bs : List Byte) :
    s.setRegs k bs = { s with v := (s.setRegs k bs).v } := by
  induction bs generalizing s k with
  | nil => rfl
  | cons b bs ih => simp only [State.setRegs]; rw [ih]; rfl

/-- `V[x]` after the registers from `k` on, none past VF, received the bytes of a list. -/
theorem State.reg_setRegs (s : State) (k : Nat) (bs : List Byte) (x : Nibble)
    (hk : k + bs.length ≤ 16) :
    (s.setRegs k bs).reg x =
      if k ≤ x.toNat then (bs[x.toNat - k]?).getD (s.reg x) else s.reg x := by
  induction bs generalizing s k with
  | nil => simp [State.setRegs]
  | cons b bs ih =>
    have hx : x.toNat < 16 := x.isLt
    simp only [List.length_cons] at hk
    have hkx : x = BitVec.ofNat 4 k ↔ x.toNat = k := by
      rw [← BitVec.toNat_inj, BitVec.toNat_ofNat, Nat.mod_eq_of_lt (by omega)]
    rw [State.setRegs, ih _ _ (by omega), State.reg_setReg]
    rcases lt_trichotomy x.toNat k with h | h | h
    · simp [hkx, show ¬k + 1 ≤ x.toNat by omega, show ¬k ≤ x.toNat by omega, h.ne]
    · simp [hkx, h]
    · obtain ⟨d, hd⟩ : ∃ d, x.toNat - k = d + 1 := ⟨x.toNat - k - 1, by omega⟩
      simp [hkx, hd, show x.toNat - (k + 1) = d by omega, show k + 1 ≤ x.toNat by omega, h.le, h.ne']

@[simp] theorem State.length_regsTo (s : State) (x : Nibble) :
    (s.regsTo x).length = x.toNat + 1 := by
  simp [State.regsTo]

/-- The bytes a register dump stores. -/
theorem State.getElem_regsTo (s : State) (x : Nibble) (k : Nat) (h : k < (s.regsTo x).length) :
    (s.regsTo x)[k] = s.reg (BitVec.ofNat 4 k) := by
  simp [State.regsTo]

/-! ### Memory -/

/-- `MEM[c]` after the change a one-byte store makes. -/
theorem State.byteAt_putByte (s : State) (a c : Nat) (b : Byte) :
    (s.putByte a b).byteAt c = if c = a ∧ s.storable a = true then b else s.byteAt c := by
  unfold State.putByte
  split
  · rename_i h; simp [State.byteAt_setByte, h]
  · rename_i h; simp [h]

/-- A one-byte store writes nothing but memory. -/
theorem State.putByte_eq (s : State) (a : Nat) (b : Byte) :
    s.putByte a b = { s with mem := (s.putByte a b).mem } := by
  unfold State.putByte
  split <;> rfl

/-- A block store writes nothing but memory. -/
theorem State.putBytes_eq (s : State) (a : Nat) (bs : List Byte) :
    s.putBytes a bs = { s with mem := (s.putBytes a bs).mem } := by
  induction bs generalizing s a with
  | nil => rfl
  | cons b bs ih =>
    simp only [State.putBytes]
    rw [ih]
    unfold State.putByte
    split <;> rfl

@[simp] theorem State.storable_putByte (s : State) (a c : Nat) (b : Byte) :
    (s.putByte a b).storable c = s.storable c := by
  rw [State.putByte_eq]; rfl

/-- `MEM[c]` after a block store at `a`: the block's bytes at the addresses a store changes, every
other byte as before. -/
theorem State.byteAt_putBytes (s : State) (a : Nat) (bs : List Byte) (c : Nat) :
    (s.putBytes a bs).byteAt c =
      if a ≤ c ∧ s.storable c = true then (bs[c - a]?).getD (s.byteAt c) else s.byteAt c := by
  induction bs generalizing s a with
  | nil => simp [State.putBytes]
  | cons b bs ih =>
    rw [State.putBytes, ih, State.byteAt_putByte, State.storable_putByte]
    rcases lt_trichotomy c a with h | h | h
    · rw [if_neg (by omega), if_neg (by omega), if_neg (by omega)]
    · subst h
      rw [if_neg (by omega)]
      by_cases hs : s.storable c = true <;> simp [hs]
    · obtain ⟨d, hd⟩ : ∃ d, c - a = d + 1 := ⟨c - a - 1, by omega⟩
      have h1 : ¬(c = a ∧ s.storable a = true) := by omega
      rw [if_neg h1, hd, show c - (a + 1) = d by omega, List.getElem?_cons_succ]
      by_cases hs : s.storable c = true
      · rw [if_pos ⟨by omega, hs⟩, if_pos ⟨by omega, hs⟩]
      · simp [hs]

theorem State.putByte_memWf {s : State} (h : s.memWf = true) {a : Nat} (ha : a < memSize)
    (b : Byte) : (s.putByte a b).memWf = true := by
  unfold State.putByte
  split
  · exact State.setByte_memWf h ha b
  · exact h

theorem State.putBytes_memWf {s : State} (h : s.memWf = true) {a : Nat} {bs : List Byte}
    (ha : a + bs.length ≤ memSize) : (s.putBytes a bs).memWf = true := by
  induction bs generalizing s a with
  | nil => exact h
  | cons b bs ih =>
    simp only [List.length_cons] at ha
    exact ih (State.putByte_memWf h (by omega) b) (by omega)

/-- A block store completes exactly when every address of the block passes both checks. -/
theorem storeBlock_eq_next {s t : State} {a : Nat} {bs : List Byte} :
    storeBlock s a bs = .next t ↔
      a + bs.length ≤ memSize ∧ (0x04F < a ∨ s.config.fontWrite ≠ .refused) ∧
        t = s.putBytes a bs := by
  unfold storeBlock
  split
  · rename_i h
    simp only [raise_ne_next, false_iff]
    omega
  · split
    · rename_i h1 h2
      simp only [refuse_ne_next, false_iff]
      rintro ⟨-, h | h, -⟩
      · omega
      · exact h h2.2
    · rename_i h1 h2
      rw [not_and_or, not_le] at h2
      constructor
      · intro h
        cases h
        exact ⟨by omega, h2, rfl⟩
      · rintro ⟨-, -, rfl⟩
        rfl

/-- A block read completes exactly when its last address exists or it has no byte. -/
theorem loadBlock_eq_next {s : State} {a n : Nat} {bs : List Byte} :
    loadBlock s a n = .next bs ↔
      (n = 0 ∨ a + n ≤ memSize) ∧ bs = (List.range n).map fun k => s.byteAt (a + k) := by
  unfold loadBlock
  split
  · rename_i h
    simp only [raise_ne_next, false_iff]
    omega
  · rename_i h
    constructor
    · intro h'
      cases h'
      exact ⟨by omega, rfl⟩
    · rintro ⟨-, rfl⟩
      rfl

/-- The fetch gives a word exactly when both its bytes exist. -/
theorem fetchWord_eq_next {s : State} {w : Word} :
    fetchWord s = .next w ↔
      s.pc.toNat + 1 ≤ 0xFFF ∧ w = s.byteAt s.pc.toNat ++ s.byteAt (s.pc.toNat + 1) := by
  unfold fetchWord memRead2
  split
  · rename_i h
    simp only [raise_ne_next, false_iff]
    omega
  · rename_i h
    constructor
    · intro h'
      cases h'
      exact ⟨by omega, rfl⟩
    · rintro ⟨-, rfl⟩
      rfl

/-- Bytes placed by an image load write nothing but memory. -/
theorem State.setBytes_eq (s : State) (a : Nat) (bs : List Byte) :
    s.setBytes a bs = { s with mem := (s.setBytes a bs).mem } := by
  induction bs generalizing s a with
  | nil => rfl
  | cons b bs ih => simp only [State.setBytes]; rw [ih]; rfl

/-- `MEM[c]` after an image load at `a`. -/
theorem State.byteAt_setBytes (s : State) (a : Nat) (bs : List Byte) (c : Nat) :
    (s.setBytes a bs).byteAt c =
      if a ≤ c then (bs[c - a]?).getD (s.byteAt c) else s.byteAt c := by
  induction bs generalizing s a with
  | nil => simp [State.setBytes]
  | cons b bs ih =>
    rw [State.setBytes, ih, State.byteAt_setByte]
    rcases lt_trichotomy c a with h | h | h
    · simp [show ¬a + 1 ≤ c by omega, show ¬a ≤ c by omega, h.ne]
    · subst h; simp
    · obtain ⟨d, hd⟩ : ∃ d, c - a = d + 1 := ⟨c - a - 1, by omega⟩
      simp [hd, show c - (a + 1) = d by omega, show a + 1 ≤ c by omega, h.le, h.ne']

theorem State.setBytes_memWf {s : State} (h : s.memWf = true) {a : Nat} {bs : List Byte}
    (ha : a + bs.length ≤ memSize) : (s.setBytes a bs).memWf = true := by
  induction bs generalizing s a with
  | nil => exact h
  | cons b bs ih =>
    simp only [List.length_cons] at ha
    exact ih (State.setByte_memWf h (by omega) b) (by omega)

/-- An image load completes exactly at the start and with an image that fits. -/
theorem loadImage_eq_next {s t : State} {bytes : List Byte} :
    loadImage s bytes = .next t ↔
      s.boot = .fresh ∧ bytes.length ≤ maxImage ∧ t = (s.setBytes 0x200 bytes).setLoaded := by
  unfold loadImage
  split
  · rename_i h; simp [h]
  · rename_i h
    rw [not_not] at h
    split
    · rename_i h1
      simp only [raise_ne_next, false_iff]
      omega
    · rename_i h1
      constructor
      · intro h'
        cases h'
        exact ⟨h, by omega, rfl⟩
      · rintro ⟨-, -, rfl⟩
        rfl

/-! ### Call stack -/

/-- A push completes exactly when fewer than 16 frames are active. -/
theorem push_eq_next {s t : State} {w : Word} :
    push s w = .next t ↔
      ∃ h : s.sp.val < 16, t = s.setFrames ⟨s.sp.val + 1, by omega⟩ (s.stack.set s.sp.val w) := by
  unfold push
  split
  · rename_i h
    constructor
    · intro h'; cases h'; exact ⟨h, rfl⟩
    · rintro ⟨-, rfl⟩; rfl
  · rename_i h; simp [h]

/-- A pop completes exactly when a frame is active. -/
theorem pop_eq_next {s : State} {p : Word × State} :
    pop s = .next p ↔
      ∃ h : 0 < s.sp.val,
        p = (s.stack[s.sp.val - 1]'(by omega), s.setFrames ⟨s.sp.val - 1, by omega⟩ s.stack) := by
  unfold pop
  split
  · rename_i h
    constructor
    · intro h'; cases h'; exact ⟨h, rfl⟩
    · rintro ⟨-, rfl⟩; rfl
  · rename_i h; simp [h]

/-! ### Flags (spec/41_register_data.md R151) -/

theorem flagByte_eq_one (c : Bool) : flagByte c = 1 ↔ c = true := by cases c <;> decide

/-- The sum-first form writes nothing but registers `x` and VF, and VF holds the flag. -/
theorem State.resultThenFlag_spec (s : State) (x y : Nibble) (result flag : Byte → Byte → Byte) :
    s.resultThenFlag x y result flag = { s with v := (s.resultThenFlag x y result flag).v } ∧
    (s.resultThenFlag x y result flag).reg vF = flag (s.reg x) (s.reg y) ∧
    (x ≠ vF → (s.resultThenFlag x y result flag).reg x = result (s.reg x) (s.reg y)) ∧
    ∀ r, r ≠ x → r ≠ vF → (s.resultThenFlag x y result flag).reg r = s.reg r := by
  refine ⟨rfl, by simp [State.resultThenFlag], fun h => ?_, fun r h1 h2 => ?_⟩
  · simp [State.resultThenFlag, State.reg_setReg, h]
  · simp [State.resultThenFlag, State.reg_setReg, h1, h2]

/-- The flag-first form writes nothing but registers `x` and VF. -/
theorem State.flagThenResult_frame (s : State) (x y : Nibble) (result flag : Byte → Byte → Byte) :
    s.flagThenResult x y result flag = { s with v := (s.flagThenResult x y result flag).v } ∧
    ∀ r, r ≠ x → r ≠ vF → (s.flagThenResult x y result flag).reg r = s.reg r := by
  unfold State.flagThenResult
  constructor
  · cases s.config.vfAlias <;> rfl
  · intro r h1 h2
    cases s.config.vfAlias <;> simp [State.reg_setReg, h1, h2]

/-- Where VF is neither operand, the flag-first form gives the result and the flag, whatever the
setting of `VF_ALIAS`. -/
theorem State.flagThenResult_plain (s : State) {x y : Nibble} (result flag : Byte → Byte → Byte)
    (hx : x ≠ vF) (hy : y ≠ vF) :
    (s.flagThenResult x y result flag).reg x = result (s.reg x) (s.reg y) ∧
    (s.flagThenResult x y result flag).reg vF = flag (s.reg x) (s.reg y) := by
  unfold State.flagThenResult
  cases s.config.vfAlias <;> simp [State.reg_setReg, hx, hy, Ne.symm hx]

/-- The flag-first form under `text_order`: the result wins where `x` is VF. -/
theorem State.flagThenResult_textOrder {s : State} (h : s.config.vfAlias = .textOrder)
    (x y : Nibble) (result flag : Byte → Byte → Byte) :
    s.flagThenResult x y result flag =
      (s.setReg vF (flag (s.reg x) (s.reg y))).setReg x (result (s.reg x) (s.reg y)) := by
  simp only [State.flagThenResult, h]

/-- The flag-first form under `sequential`: the result is computed from the registers as the flag
left them. -/
theorem State.flagThenResult_sequential {s : State} (h : s.config.vfAlias = .sequential)
    (x y : Nibble) (result flag : Byte → Byte → Byte) :
    s.flagThenResult x y result flag =
      (s.setReg vF (flag (s.reg x) (s.reg y))).setReg x
        (result ((s.setReg vF (flag (s.reg x) (s.reg y))).reg x)
          ((s.setReg vF (flag (s.reg x) (s.reg y))).reg y)) := by
  simp only [State.flagThenResult, h]

/-- The flag-first form under `flag_last`: the flag wins where `x` is VF. -/
theorem State.flagThenResult_flagLast {s : State} (h : s.config.vfAlias = .flagLast)
    (x y : Nibble) (result flag : Byte → Byte → Byte) :
    s.flagThenResult x y result flag =
      (s.setReg x (result (s.reg x) (s.reg y))).setReg vF (flag (s.reg x) (s.reg y)) := by
  simp only [State.flagThenResult, h]

/-! ### Operand forms -/

/-- The key index of a register value, and when it is one (spec/43_keypad.md R222). -/
theorem keyIndex_eq_next {s : State} {a : Byte} {k : Nibble} :
    keyIndex s a = .next k ↔
      (a.toNat ≤ 15 ∨ s.config.keyIndexOor = .lowNibble) ∧ k = a.setWidth 4 := by
  unfold keyIndex
  split
  · rename_i h
    constructor
    · intro h'; cases h'; exact ⟨.inl h, rfl⟩
    · rintro ⟨-, rfl⟩; rfl
  · rename_i h
    split <;> rename_i h1
    · simp [h, h1]
    · constructor
      · intro h'; cases h'; exact ⟨.inr h1, rfl⟩
      · rintro ⟨-, rfl⟩; rfl

/-- The change of I after a block transfer writes nothing but I. -/
theorem State.reg_advance (s : State) (x : Nibble) : s.advance.reg x = s.reg x := rfl

/-- A pixel after one cell is written. -/
theorem pixel_setPixel (fb : Framebuffer) (c d : Fin 64) (r q : Fin 32) (b : Bool) :
    pixel (setPixel fb c r b) d q = if d = c ∧ q = r then b else pixel fb d q := by
  unfold pixel setPixel
  simp only [Fin.getElem_fin, Vector.getElem_set, Fin.val_inj]
  by_cases h1 : c = d
  · subst h1
    by_cases h2 : r = q
    · subst h2; simp
    · simp [h2, Ne.symm h2, Fin.val_inj]
  · simp [h1, Ne.symm h1]

@[simp] theorem pixel_blank (c : Fin 64) (r : Fin 32) : pixel blank c r = false := by
  simp [pixel, blank]

end Sys2Proof.Machine
end

