-- ==== Sys2Proof/Laws/Draw.lean ====
section
/-! SUPPORT. What a sprite's XOR-blit does to the framebuffer, cell by cell
(spec/44_draw.md R231, R232): the fold over the sprite's bits in closed form. -/

namespace Sys2Proof.Machine

/-- The cell a sprite bit falls on, for a sprite at column `a` and row `b`. -/
def bitCell (a b : Nat) (p : Nat × Nat) : Fin 64 × Fin 32 := (wrapColumn a p.1, wrapRow b p.2)

/-- Bits that fall on distinct cells: each cell named is inverted, every other cell is kept, and
the collision flag is set exactly when a named cell was lit. -/
theorem foldl_plot (a b : Nat) (l : List (Nat × Nat)) (h : (l.map (bitCell a b)).Nodup)
    (fb : Framebuffer) (hit : Bool) :
    (∀ c r, pixel (l.foldl (plot a b) (fb, hit)).1 c r =
      (pixel fb c r ^^ decide ((c, r) ∈ l.map (bitCell a b)))) ∧
    ((l.foldl (plot a b) (fb, hit)).2 = true ↔
      hit = true ∨ ∃ q ∈ l.map (bitCell a b), pixel fb q.1 q.2 = true) := by
  induction l generalizing fb hit with
  | nil => simp
  | cons p l ih =>
    rw [List.map_cons, List.nodup_cons] at h
    obtain ⟨ih1, ih2⟩ := ih h.2 (plot a b (fb, hit) p).1 (plot a b (fb, hit) p).2
    have hp : ∀ c r, pixel (plot a b (fb, hit) p).1 c r =
        if (c, r) = bitCell a b p then !pixel fb c r else pixel fb c r := by
      intro c r
      simp only [plot, pixel_setPixel, bitCell, Prod.mk.injEq]
      split
      · rename_i h1; rw [h1.1, h1.2]
      · rfl
    rw [List.foldl_cons]
    refine ⟨fun c r => ?_, ?_⟩
    · rw [ih1, hp, List.map_cons]
      by_cases hc : (c, r) = bitCell a b p
      · have hn : (c, r) ∉ l.map (bitCell a b) := hc ▸ h.1
        have hm : (c, r) ∈ bitCell a b p :: l.map (bitCell a b) := hc ▸ List.mem_cons_self
        rw [if_pos hc, decide_eq_false hn, decide_eq_true hm]
        cases pixel fb c r <;> rfl
      · rw [if_neg hc, decide_eq_decide.2 (by simp [hc] : (c, r) ∈ bitCell a b p :: l.map (bitCell a b) ↔
          (c, r) ∈ l.map (bitCell a b))]
    · rw [ih2]
      have hq : ∀ q ∈ l.map (bitCell a b), pixel (plot a b (fb, hit) p).1 q.1 q.2 = pixel fb q.1 q.2 := by
        intro q hq
        rw [hp, if_neg]
        intro hqp
        exact h.1 (hqp ▸ hq)
      rw [List.map_cons, List.exists_mem_cons_iff,
        show (∃ q ∈ l.map (bitCell a b), pixel (plot a b (fb, hit) p).1 q.1 q.2 = true) ↔
          ∃ q ∈ l.map (bitCell a b), pixel fb q.1 q.2 = true from
          exists_congr fun q => and_congr_right fun h' => by rw [hq q h'],
        ← or_assoc]
      simp [plot, bitCell]

/-- The sprite's 1-bits: bit `7 - c` of the byte of row `r` (R231). -/
theorem mem_spriteBits {k : Nat} {bs : List Byte} {c r : Nat} :
    (c, r) ∈ spriteBits k bs ↔
      c < 8 ∧ k ≤ r ∧ ∃ b, bs[r - k]? = some b ∧ b.getLsbD (7 - c) = true := by
  induction bs generalizing k with
  | nil => simp [spriteBits]
  | cons d bs ih =>
    simp only [spriteBits, rowBits, List.mem_append, List.mem_map, List.mem_filter, List.mem_range,
      ih, Prod.mk.injEq]
    rcases lt_trichotomy r k with h | h | h
    · constructor
      · rintro (⟨c', -, -, rfl⟩ | ⟨-, h2, -⟩) <;> omega
      · rintro ⟨-, h2, -⟩; omega
    · subst h
      constructor
      · rintro (⟨c', ⟨h1, h2⟩, rfl, -⟩ | ⟨-, h2, -⟩)
        · exact ⟨h1, le_rfl, d, by simp, h2⟩
        · omega
      · rintro ⟨h1, -, b, hb, h2⟩
        simp only [Nat.sub_self, List.getElem?_cons_zero, Option.some.injEq] at hb
        subst hb
        exact .inl ⟨c, ⟨h1, h2⟩, rfl, rfl⟩
    · obtain ⟨m, hm⟩ : ∃ m, r - k = m + 1 := ⟨r - k - 1, by omega⟩
      rw [hm, show r - (k + 1) = m by omega, List.getElem?_cons_succ]
      constructor
      · rintro (⟨c', -, -, rfl⟩ | ⟨h1, -, h2⟩)
        · omega
        · exact ⟨h1, h.le, h2⟩
      · rintro ⟨h1, -, h2⟩
        exact .inr ⟨h1, h, h2⟩

theorem nodup_spriteBits (k : Nat) (bs : List Byte) : (spriteBits k bs).Nodup := by
  induction bs generalizing k with
  | nil => simp [spriteBits]
  | cons d bs ih =>
    rw [spriteBits, List.nodup_append]
    refine ⟨?_, ih _, ?_⟩
    · refine List.Nodup.map (fun _ _ h => (Prod.mk.inj h).1) ?_
      exact List.Nodup.filter _ List.nodup_range
    · rintro ⟨c, r⟩ h1 ⟨c', r'⟩ h2 heq
      cases heq
      obtain ⟨_, -, h1⟩ := List.mem_map.1 h1
      have := (mem_spriteBits.1 h2).2.1
      have := (Prod.mk.inj h1).2
      omega

/-- No two bits of a sprite of at most 32 rows fall on one cell: 8 columns of 64, and as many
rows as the grid has (R232). -/
theorem nodup_bitCell (a b : Nat) {bs : List Byte} (h : bs.length ≤ 32) :
    ((spriteBits 0 bs).map (bitCell a b)).Nodup := by
  refine (List.nodup_map_iff_inj_on (nodup_spriteBits 0 bs)).2 ?_
  rintro ⟨c, r⟩ h1 ⟨c', r'⟩ h2 heq
  obtain ⟨hc, -, x, hx, -⟩ := mem_spriteBits.1 h1
  obtain ⟨hc', -, x', hx', -⟩ := mem_spriteBits.1 h2
  have hr := (List.getElem?_eq_some_iff.1 hx).1
  have hr' := (List.getElem?_eq_some_iff.1 hx').1
  simp only [bitCell, wrapColumn, wrapRow, Prod.mk.injEq, Fin.mk.injEq] at heq
  rw [Prod.mk.injEq]
  omega

/-- The framebuffer and the collision flag after a sprite of at most 32 rows, cell by cell. -/
theorem blit_spec (a b : Nat) (fb : Framebuffer) {bs : List Byte} (h : bs.length ≤ 32) :
    (∀ c r, pixel (blit a b fb bs).1 c r =
      (pixel fb c r ^^ decide ((c, r) ∈ (spriteBits 0 bs).map (bitCell a b)))) ∧
    ((blit a b fb bs).2 = true ↔
      ∃ q ∈ (spriteBits 0 bs).map (bitCell a b), pixel fb q.1 q.2 = true) := by
  have := foldl_plot a b (spriteBits 0 bs) (nodup_bitCell a b h) fb false
  simpa [blit] using this

end Sys2Proof.Machine
end

