-- ==== Sys2Proof/Laws/Exec.lean ====
section
/-! SUPPORT. What `exec` can answer: for each instruction that can fail, exactly when it answers a
next state and which; and what no instruction touches. The other instructions always answer the
state their meaning names, by `rfl`. -/

namespace Sys2Proof.Machine

theorem exec_ret_eq_next {s t : State} :
    exec .ret s = .next t ↔
      ∃ h : 0 < s.sp.val,
        t = (s.setFrames ⟨s.sp.val - 1, by omega⟩ s.stack).setPc
          (s.stack[s.sp.val - 1]'(by omega)) := by
  simp only [exec, execRet, andThen_eq_next, pop_eq_next]
  constructor
  · rintro ⟨p, ⟨h, rfl⟩, h'⟩
    cases h'
    exact ⟨h, rfl⟩
  · rintro ⟨h, rfl⟩
    exact ⟨_, ⟨h, rfl⟩, rfl⟩

theorem exec_call_eq_next {nnn : Addr} {s t : State} :
    exec (.call nnn) s = .next t ↔
      ∃ h : s.sp.val < 16,
        t = (s.setFrames ⟨s.sp.val + 1, by omega⟩ (s.stack.set s.sp.val (s.pc + 2))).setPc
          (addrWord nnn) := by
  simp only [exec, execCall, andThen_eq_next, push_eq_next]
  constructor
  · rintro ⟨p, ⟨h, rfl⟩, h'⟩
    cases h'
    exact ⟨h, rfl⟩
  · rintro ⟨h, rfl⟩
    exact ⟨_, ⟨h, rfl⟩, rfl⟩

theorem exec_ldB_eq_next {x : Nibble} {s t : State} :
    exec (.ldB x) s = .next t ↔
      s.i.toNat + 3 ≤ memSize ∧ (0x04F < s.i.toNat ∨ s.config.fontWrite ≠ .refused) ∧
        t = (s.putBytes s.i.toNat (bcdDigits (s.reg x))).advance := by
  simp only [exec, execLdB, andThen_eq_next, storeBlock_eq_next]
  constructor
  · rintro ⟨u, ⟨h1, h2, rfl⟩, h'⟩
    cases h'
    exact ⟨h1, h2, rfl⟩
  · rintro ⟨h1, h2, rfl⟩
    exact ⟨_, ⟨h1, h2, rfl⟩, rfl⟩

theorem exec_dump_eq_next {x : Nibble} {s t : State} :
    exec (.dump x) s = .next t ↔
      s.i.toNat + (x.toNat + 1) ≤ memSize ∧
        (0x04F < s.i.toNat ∨ s.config.fontWrite ≠ .refused) ∧
        t = ((s.putBytes s.i.toNat (s.regsTo x)).bumpI x).advance := by
  simp only [exec, execDump, andThen_eq_next, storeBlock_eq_next, State.length_regsTo]
  constructor
  · rintro ⟨u, ⟨h1, h2, rfl⟩, h'⟩
    cases h'
    exact ⟨h1, h2, rfl⟩
  · rintro ⟨h1, h2, rfl⟩
    exact ⟨_, ⟨h1, h2, rfl⟩, rfl⟩

theorem exec_load_eq_next {x : Nibble} {s t : State} :
    exec (.load x) s = .next t ↔
      s.i.toNat + (x.toNat + 1) ≤ memSize ∧
        t = ((s.setRegs 0 ((List.range (x.toNat + 1)).map fun k => s.byteAt (s.i.toNat + k))).bumpI
          x).advance := by
  simp only [exec, execLoad, andThen_eq_next, loadBlock_eq_next]
  constructor
  · rintro ⟨u, ⟨h1, rfl⟩, h'⟩
    cases h'
    exact ⟨by omega, rfl⟩
  · rintro ⟨h1, rfl⟩
    exact ⟨_, ⟨.inr h1, rfl⟩, rfl⟩

theorem exec_skp_eq_next {x : Nibble} {s t : State} :
    exec (.skp x) s = .next t ↔
      ((s.reg x).toNat ≤ 15 ∨ s.config.keyIndexOor = .lowNibble) ∧
        t = s.skipIf (s.keyDown ((s.reg x).setWidth 4)) := by
  simp only [exec, execSkp, andThen_eq_next, keyIndex_eq_next]
  constructor
  · rintro ⟨u, ⟨h1, rfl⟩, h'⟩
    cases h'
    exact ⟨h1, rfl⟩
  · rintro ⟨h1, rfl⟩
    exact ⟨_, ⟨h1, rfl⟩, rfl⟩

theorem exec_sknp_eq_next {x : Nibble} {s t : State} :
    exec (.sknp x) s = .next t ↔
      ((s.reg x).toNat ≤ 15 ∨ s.config.keyIndexOor = .lowNibble) ∧
        t = s.skipIf !(s.keyDown ((s.reg x).setWidth 4)) := by
  simp only [exec, execSknp, andThen_eq_next, keyIndex_eq_next]
  constructor
  · rintro ⟨u, ⟨h1, rfl⟩, h'⟩
    cases h'
    exact ⟨h1, rfl⟩
  · rintro ⟨h1, rfl⟩
    exact ⟨_, ⟨h1, rfl⟩, rfl⟩

/-- The bytes of a sprite of `n` rows at I. -/
def State.spriteAt (s : State) (n : Nibble) : List Byte :=
  (List.range n.toNat).map fun k => s.byteAt (s.i.toNat + k)

theorem exec_drw_eq_next {x y n : Nibble} {s t : State} :
    exec (.drw x y n) s = .next t ↔
      (n.toNat = 0 ∨ s.i.toNat + n.toNat ≤ memSize) ∧
        t = ((s.setFb (blit (s.reg x).toNat (s.reg y).toNat s.fb (s.spriteAt n)).1).setReg vF
          (flagByte (blit (s.reg x).toNat (s.reg y).toNat s.fb (s.spriteAt n)).2)).advance := by
  simp only [exec, execDrw, andThen_eq_next, loadBlock_eq_next]
  constructor
  · rintro ⟨u, ⟨h1, rfl⟩, h'⟩
    cases h'
    exact ⟨h1, rfl⟩
  · rintro ⟨h1, rfl⟩
    exact ⟨_, ⟨h1, rfl⟩, rfl⟩

/-- An optional word completes only under `standard`. -/
theorem byOption_eq_next {o : OptOutcome} {w : Word} {m : Result State} {t : State} :
    byOption o w m = .next t ↔ o = .standard ∧ m = .next t := by
  cases o <;> simp [byOption]

theorem exec_sys_eq_next {nnn : Addr} {s t : State} :
    exec (.sys nnn) s = .next t ↔ s.config.optSys = .standard ∧ t = s.advance := by
  rw [exec, execSys, byOption_eq_next]
  exact and_congr_right fun _ => ⟨fun h => (Host.Outcome.next.inj h).symm, fun h => h ▸ rfl⟩

theorem exec_jpV0_eq_next {nnn : Addr} {s t : State} :
    exec (.jpV0 nnn) s = .next t ↔
      s.config.optJpV0 = .standard ∧ t = s.setPc (addrWord nnn + byteWord (s.reg 0)) := by
  rw [exec, execJpV0, byOption_eq_next]
  exact and_congr_right fun _ => ⟨fun h => (Host.Outcome.next.inj h).symm, fun h => h ▸ rfl⟩

theorem exec_ldVxK_eq_next {x : Nibble} {s t : State} :
    exec (.ldVxK x) s = .next t ↔
      s.config.optWaitKey = .standard ∧
        t = match s.lowestKey with
          | some k => (s.setReg x (k.setWidth 8)).advance
          | none => s := by
  rw [exec, execLdVxK, byOption_eq_next]
  exact and_congr_right fun _ => ⟨fun h => (Host.Outcome.next.inj h).symm, fun h => h ▸ rfl⟩

/-- The smallest pressed key (R253). -/
theorem State.lowestKey_eq_some {s : State} {k : Nibble} :
    s.lowestKey = some k ↔
      s.keyDown k = true ∧ ∀ j : Nibble, j.toNat < k.toNat → s.keyDown j = false := by
  have hk : k.toNat < 16 := k.isLt
  have get : ∀ m : Nat, m < 16 →
      ((List.range 16).map (BitVec.ofNat 4))[m]? = some (BitVec.ofNat 4 m) := by
    intro m hm
    rw [List.getElem?_map, List.getElem?_range hm]
    rfl
  have ofNat_toNat : ∀ j : Nibble, BitVec.ofNat 4 j.toNat = j := fun j => by simp
  rw [State.lowestKey, List.find?_eq_some_iff_getElem]
  constructor
  · rintro ⟨hd, m, hm, hmk, hlt⟩
    have hm16 : m < 16 := by simpa using hm
    refine ⟨hd, fun j hj => ?_⟩
    have hkm : k.toNat = m := by
      have : BitVec.ofNat 4 m = k := by simpa using hmk
      rw [← this, BitVec.toNat_ofNat, Nat.mod_eq_of_lt hm16]
    have := hlt j.toNat (by omega)
    simpa using this
  · rintro ⟨hd, hlt⟩
    refine ⟨hd, k.toNat, by simpa using hk, by simp, fun j hj => ?_⟩
    have hj4 : (BitVec.ofNat 4 j).toNat = j := by
      rw [BitVec.toNat_ofNat, Nat.mod_eq_of_lt (by omega)]
    have := hlt (BitVec.ofNat 4 j) (by omega)
    simp [this]

/-- No key is pressed (R253). -/
theorem State.lowestKey_eq_none {s : State} :
    s.lowestKey = none ↔ ∀ k : Nibble, s.keyDown k = false := by
  rw [State.lowestKey, List.find?_eq_none]
  constructor
  · intro h k
    have := h k (List.mem_map.2 ⟨k.toNat, List.mem_range.2 k.isLt, by simp⟩)
    simpa using this
  · intro h k _
    simp [h k]

/-- The change of I after a block transfer. -/
theorem State.bumpI_eq (s : State) (x : Nibble) : s.bumpI x = { s with i := (s.bumpI x).i } := by
  unfold State.bumpI
  cases s.config.lsIIncrement <;> rfl

/-- I after a block transfer (R184, R185). -/
theorem State.bumpI_i (s : State) (x : Nibble) :
    (s.bumpI x).i =
      match s.config.lsIIncrement with
      | .none => s.i
      | .xPlus1 => s.i + BitVec.ofNat 16 (x.toNat + 1) := by
  unfold State.bumpI
  cases s.config.lsIIncrement <;> rfl

/-- No instruction touches the parameters, the inputs, the boot order, the host's schedule, the last
call's result or the refusal mark. -/
theorem exec_env {ins : Instr} {s t : State} (h : exec ins s = .next t) :
    t.config = s.config ∧ t.keys = s.keys ∧ t.rnd = s.rnd ∧ t.boot = s.boot ∧ t.host = s.host ∧
      t.draws = s.draws ∧ t.result = s.result ∧ t.refusal = s.refusal := by
  cases ins with
  | ret => obtain ⟨_, rfl⟩ := exec_ret_eq_next.1 h; simp
  | call nnn => obtain ⟨_, rfl⟩ := exec_call_eq_next.1 h; simp
  | ldB x => obtain ⟨_, _, rfl⟩ := exec_ldB_eq_next.1 h; rw [State.putBytes_eq]; simp
  | dump x =>
    obtain ⟨_, _, rfl⟩ := exec_dump_eq_next.1 h
    rw [State.bumpI_eq, State.putBytes_eq]; simp
  | load x =>
    obtain ⟨_, rfl⟩ := exec_load_eq_next.1 h
    rw [State.bumpI_eq, State.setRegs_eq]; simp
  | skp x => obtain ⟨_, rfl⟩ := exec_skp_eq_next.1 h; simp
  | sknp x => obtain ⟨_, rfl⟩ := exec_sknp_eq_next.1 h; simp
  | drw x y n => obtain ⟨_, rfl⟩ := exec_drw_eq_next.1 h; simp
  | sys nnn => obtain ⟨_, rfl⟩ := exec_sys_eq_next.1 h; simp
  | jpV0 nnn => obtain ⟨_, rfl⟩ := exec_jpV0_eq_next.1 h; simp
  | ldVxK x =>
    obtain ⟨_, rfl⟩ := exec_ldVxK_eq_next.1 h
    cases s.lowestKey <;> simp
  | sub x y => cases h; rw [(State.flagThenResult_frame ..).1]; simp
  | subn x y => cases h; rw [(State.flagThenResult_frame ..).1]; simp
  | shr x y => cases h; rw [(State.flagThenResult_frame ..).1]; simp
  | shl x y => cases h; rw [(State.flagThenResult_frame ..).1]; simp
  | addReg x y => cases h; rw [(State.resultThenFlag_spec ..).1]; simp
  | cls => cases h; simp
  | jp nnn => cases h; simp
  | seImm x kk => cases h; simp
  | sneImm x kk => cases h; simp
  | seReg x y => cases h; simp
  | sneReg x y => cases h; simp
  | ldImm x kk => cases h; simp
  | addImm x kk => cases h; simp
  | ldReg x y => cases h; simp
  | orReg x y => cases h; simp
  | andReg x y => cases h; simp
  | xorReg x y => cases h; simp
  | ldI nnn => cases h; simp
  | addI x => cases h; simp
  | ldF x => cases h; simp
  | rnd x kk => cases h; simp
  | ldVxDt x => cases h; simp
  | ldDtVx x => cases h; simp
  | ldStVx x => cases h; simp

/-- A cycle completes exactly when the fetch and the decode do and the instruction does. -/
theorem runCycle_eq_next {s t : State} :
    runCycle s = .next t ↔
      ∃ w ins, fetchWord s = .next w ∧ decode w = .ok ins ∧ exec ins s = .next t := by
  simp only [runCycle, andThen_eq_next, decodeAndExec]
  constructor
  · rintro ⟨w, hw, h⟩
    cases hd : decode w with
    | ok ins => rw [hd] at h; exact ⟨w, ins, hw, hd, h⟩
    | error e =>
      rw [hd] at h
      simp only [undefinedWord] at h
      cases hu : s.config.undefinedWord <;> simp [hu] at h
  · rintro ⟨w, ins, hw, hd, h⟩
    exact ⟨w, hw, by simp only [hd]; exact h⟩

/-! ### What a host call can do -/

/-- Taking the next call off the schedule keeps all but the schedule and, where no call is left, the
counter of draws and the timers. -/
theorem takeCall_kept {s v : State} {c : HostCall} (h : takeCall s = (c, v)) :
    v = { s with host := v.host, draws := v.draws, dt := v.dt, st := v.st } := by
  cases hh : s.host with
  | nil =>
    simp only [takeCall, hh, Prod.mk.injEq] at h
    obtain ⟨-, rfl⟩ := h
    rfl
  | cons d rest =>
    simp only [takeCall, hh, Prod.mk.injEq] at h
    obtain ⟨-, rfl⟩ := h
    rfl

/-- A call that is not a cycle is the schedule's first. -/
theorem takeCall_scheduled {s v : State} {c : HostCall} (h : takeCall s = (c, v))
    (hc : c.isCycle = false) : s.host = c :: v.host ∧ v = { s with host := v.host } := by
  cases hh : s.host with
  | nil =>
    simp only [takeCall, hh, Prod.mk.injEq] at h
    rw [← h.1] at hc
    cases hc
  | cons d rest =>
    simp only [takeCall, hh, Prod.mk.injEq] at h
    obtain ⟨rfl, rfl⟩ := h
    exact ⟨rfl, rfl⟩

/-- The state a call's own part starts from, against the state before the call. -/
theorem beginCall_kept {s v : State} {c : HostCall} (h : takeCall s = (c, v)) :
    beginCall c v =
      { s with keys := (beginCall c v).keys, rnd := (beginCall c v).rnd,
               boot := (beginCall c v).boot, host := (beginCall c v).host,
               draws := (beginCall c v).draws, dt := (beginCall c v).dt,
               st := (beginCall c v).st, result := (beginCall c v).result } ∧
    ((beginCall c v).boot = s.boot ∨ (beginCall c v).boot = .running) := by
  rw [takeCall_kept h]
  cases c with
  | cycle keys rnd => exact ⟨rfl, .inr rfl⟩
  | tick => exact ⟨rfl, .inl rfl⟩
  | loadImage bytes => exact ⟨rfl, .inl rfl⟩
  | readFramebuffer => exact ⟨rfl, .inl rfl⟩
  | soundActive => exact ⟨rfl, .inl rfl⟩

/-- When a call has a next state: its own part gave it, or an error was taken. -/
theorem settle_eq_next {s t : State} {o : Result State} :
    settle s o = .next t ↔ o = .next t ∨ ∃ e, o = .fault e ∧ t = s.takeError e := by
  cases o with
  | next u => simp [settle]
  | fault e => simp [settle, eq_comm]
  | refused r => simp [settle]

/-- A settled call does not end in an error. -/
theorem settle_ne_fault (s : State) (o : Result State) (e : Fault) : settle s o ≠ .fault e := by
  cases o <;> nofun

/-- A step is the host's next call, unless the refusal mark is set. -/
theorem step_of_unmarked {s v : State} {c : HostCall} (hr : s.refusal = none)
    (h : takeCall s = (c, v)) : step s = settle (beginCall c v) (attempt c (beginCall c v)) := by
  simp only [step, nextCall, hr, h, perform]

/-- No step is made under the refusal mark. -/
theorem step_of_marked {s : State} {r : Refusal} (h : s.refusal = some r) :
    step s = .refused r := by
  simp only [step, nextCall, h, refuse]

/-- A step that has a next state starts without the refusal mark. -/
theorem refusal_of_step {s t : State} (h : step s = .next t) : s.refusal = none := by
  cases hr : s.refusal with
  | none => rfl
  | some r => rw [step_of_marked hr] at h; cases h

/-- What a step that has a next state has done: it ran an instruction, returned an error, or made one
of the other calls. -/
theorem step_cases {s t : State} (h : step s = .next t) :
    (∃ u ins, RunsInstr s u ins ∧ exec ins u = .next t) ∨
    (∃ c v e, takeCall s = (c, v) ∧ attempt c (beginCall c v) = .fault e ∧
      t = (beginCall c v).takeError e) ∨
    (∃ rest, s.host = .tick :: rest ∧ t = { s with host := rest }.tick) ∨
    (∃ bytes rest, s.host = .loadImage bytes :: rest ∧
      loadImage { s with host := rest } bytes = .next t) ∨
    ∃ rest, (s.host = .readFramebuffer :: rest ∨ s.host = .soundActive :: rest) ∧
      t = { s with host := rest } := by
  have hr := refusal_of_step h
  obtain ⟨c, v, ht⟩ : ∃ c v, takeCall s = (c, v) := ⟨_, _, rfl⟩
  rw [step_of_unmarked hr ht, settle_eq_next] at h
  rcases h with h | ⟨e, he, rfl⟩
  · cases c with
    | cycle keys rnd =>
      obtain ⟨w, ins, hw, hd, he⟩ := runCycle_eq_next.1 h
      exact .inl ⟨_, ins, ⟨hr, _, _, v, w, ht, rfl, hw, hd⟩, he⟩
    | tick =>
      obtain ⟨hh, hv⟩ := takeCall_scheduled ht rfl
      cases h
      exact .inr (.inr (.inl ⟨v.host, hh, by rw [hv]; rfl⟩))
    | loadImage bytes =>
      obtain ⟨hh, hv⟩ := takeCall_scheduled ht rfl
      refine .inr (.inr (.inr (.inl ⟨bytes, v.host, hh, ?_⟩)))
      rw [← hv]
      exact h
    | readFramebuffer =>
      obtain ⟨hh, hv⟩ := takeCall_scheduled ht rfl
      cases h
      exact .inr (.inr (.inr (.inr ⟨v.host, .inl hh, hv⟩)))
    | soundActive =>
      obtain ⟨hh, hv⟩ := takeCall_scheduled ht rfl
      cases h
      exact .inr (.inr (.inr (.inr ⟨v.host, .inr hh, hv⟩)))
  · exact .inr (.inl ⟨c, v, e, ht, he, rfl⟩)

/-- What the state an instruction runs in shares with the state before the step: everything but
the inputs, the boot order, the schedule, the result and, after free ticks, the timers. -/
theorem RunsInstr.kept {s u : State} {ins : Instr} (h : RunsInstr s u ins) :
    u = { s with keys := u.keys, rnd := u.rnd, boot := u.boot, host := u.host, draws := u.draws,
                 dt := u.dt, st := u.st, result := u.result } ∧
    u.boot = .running ∧ u.result = .ok ∧ u.pc.toNat + 1 ≤ 0xFFF := by
  obtain ⟨-, keys, rnd, v, w, ht, rfl, hw, -⟩ := h
  exact ⟨(beginCall_kept ht).1, rfl, rfl, (fetchWord_eq_next.1 hw).1⟩

/-! ### What any instruction does to memory, the call stack and the PC -/

/-- Memory changes only by the block stores of Fx33 and Fx55 (R58). -/
theorem exec_mem {ins : Instr} {s t : State} (h : exec ins s = .next t) :
    t.mem = s.mem ∨
    (∃ x, ins = .ldB x ∧ s.i.toNat + 3 ≤ memSize ∧
      (0x04F < s.i.toNat ∨ s.config.fontWrite ≠ .refused) ∧
      t.mem = (s.putBytes s.i.toNat (bcdDigits (s.reg x))).mem) ∨
    ∃ x, ins = .dump x ∧ s.i.toNat + (x.toNat + 1) ≤ memSize ∧
      (0x04F < s.i.toNat ∨ s.config.fontWrite ≠ .refused) ∧
      t.mem = (s.putBytes s.i.toNat (s.regsTo x)).mem := by
  cases ins with
  | ldB x =>
    obtain ⟨h1, h2, rfl⟩ := exec_ldB_eq_next.1 h
    exact .inr (.inl ⟨x, rfl, h1, h2, rfl⟩)
  | dump x =>
    obtain ⟨h1, h2, rfl⟩ := exec_dump_eq_next.1 h
    exact .inr (.inr ⟨x, rfl, h1, h2, by rw [State.bumpI_eq]; rfl⟩)
  | ret => obtain ⟨_, rfl⟩ := exec_ret_eq_next.1 h; exact .inl rfl
  | call nnn => obtain ⟨_, rfl⟩ := exec_call_eq_next.1 h; exact .inl rfl
  | load x =>
    obtain ⟨_, rfl⟩ := exec_load_eq_next.1 h
    left; rw [State.bumpI_eq, State.setRegs_eq]; rfl
  | skp x => obtain ⟨_, rfl⟩ := exec_skp_eq_next.1 h; exact .inl rfl
  | sknp x => obtain ⟨_, rfl⟩ := exec_sknp_eq_next.1 h; exact .inl rfl
  | drw x y n => obtain ⟨_, rfl⟩ := exec_drw_eq_next.1 h; exact .inl rfl
  | sys nnn => obtain ⟨_, rfl⟩ := exec_sys_eq_next.1 h; exact .inl rfl
  | jpV0 nnn => obtain ⟨_, rfl⟩ := exec_jpV0_eq_next.1 h; exact .inl rfl
  | ldVxK x => obtain ⟨_, rfl⟩ := exec_ldVxK_eq_next.1 h; left; cases s.lowestKey <;> rfl
  | sub | subn | shr | shl => cases h; left; rw [(State.flagThenResult_frame ..).1]; rfl
  | _ => cases h; exact .inl rfl

/-- Every instruction keeps the canonical form of memory. -/
theorem exec_memWf {ins : Instr} {s t : State} (h : exec ins s = .next t)
    (hw : s.memWf = true) : t.memWf = true := by
  have hc := (exec_env h).1
  rcases exec_mem h with hm | ⟨x, -, h1, -, hm⟩ | ⟨x, -, h1, -, hm⟩
  · simpa [State.memWf, hc, hm] using hw
  · have := State.putBytes_memWf hw (a := s.i.toNat) (bs := bcdDigits (s.reg x)) h1
    rw [State.memWf, State.putBytes_eq] at this
    rw [State.memWf, hc, hm]; exact this
  · have := State.putBytes_memWf hw (a := s.i.toNat) (bs := s.regsTo x) (by simpa using h1)
    rw [State.memWf, State.putBytes_eq] at this
    rw [State.memWf, hc, hm]; exact this

/-- The call stack changes only by 00EE, which keeps the slots, and by 2nnn (R28). -/
theorem exec_frames {ins : Instr} {s t : State} (h : exec ins s = .next t) :
    (t.sp = s.sp ∧ t.stack = s.stack) ∨ (ins = .ret ∧ t.stack = s.stack) ∨
    ∃ nnn, ins = .call nnn ∧ ∃ h : s.sp.val < 16, t.stack = s.stack.set s.sp.val (s.pc + 2) := by
  cases ins with
  | ldB x =>
    obtain ⟨h1, h2, rfl⟩ := exec_ldB_eq_next.1 h
    rw [State.putBytes_eq]
    exact .inl ⟨rfl, rfl⟩
  | dump x =>
    obtain ⟨h1, h2, rfl⟩ := exec_dump_eq_next.1 h
    rw [State.bumpI_eq, State.putBytes_eq]
    exact .inl ⟨rfl, rfl⟩
  | ret => obtain ⟨_, rfl⟩ := exec_ret_eq_next.1 h; exact .inr (.inl ⟨rfl, rfl⟩)
  | call nnn => obtain ⟨hh, rfl⟩ := exec_call_eq_next.1 h; exact .inr (.inr ⟨nnn, rfl, hh, rfl⟩)
  | load x =>
    obtain ⟨_, rfl⟩ := exec_load_eq_next.1 h
    left
    rw [State.bumpI_eq, State.setRegs_eq]
    exact ⟨rfl, rfl⟩
  | skp x => obtain ⟨_, rfl⟩ := exec_skp_eq_next.1 h; exact .inl ⟨rfl, rfl⟩
  | sknp x => obtain ⟨_, rfl⟩ := exec_sknp_eq_next.1 h; exact .inl ⟨rfl, rfl⟩
  | drw x y n => obtain ⟨_, rfl⟩ := exec_drw_eq_next.1 h; exact .inl ⟨rfl, rfl⟩
  | sys nnn => obtain ⟨_, rfl⟩ := exec_sys_eq_next.1 h; exact .inl ⟨rfl, rfl⟩
  | jpV0 nnn => obtain ⟨_, rfl⟩ := exec_jpV0_eq_next.1 h; exact .inl ⟨rfl, rfl⟩
  | ldVxK x =>
    obtain ⟨_, rfl⟩ := exec_ldVxK_eq_next.1 h
    left
    cases s.lowestKey <;> exact ⟨rfl, rfl⟩
  | sub | subn | shr | shl =>
    cases h
    left
    rw [(State.flagThenResult_frame ..).1]
    exact ⟨rfl, rfl⟩
  | _ => cases h; exact .inl ⟨rfl, rfl⟩

/-- Where an instruction leaves the PC (R104, R107 to R114, R252, R253). -/
theorem exec_pc {ins : Instr} {s t : State} (h : exec ins s = .next t) :
    t.pc = s.pc + 2 ∨ t.pc = s.pc + 4 ∨ t.pc = s.pc ∨ (∃ k, t.pc = s.slot k) ∨
    (∃ nnn, t.pc = addrWord nnn) ∨ ∃ nnn, t.pc = addrWord nnn + byteWord (s.reg 0) := by
  have skips : ∀ c, (s.skipIf c).pc = s.pc + 2 ∨ (s.skipIf c).pc = s.pc + 4 := by
    intro c
    cases c
    · exact .inl rfl
    · exact .inr rfl
  cases ins with
  | ldB x => obtain ⟨h1, h2, rfl⟩ := exec_ldB_eq_next.1 h; rw [State.putBytes_eq]; exact .inl rfl
  | dump x =>
    obtain ⟨h1, h2, rfl⟩ := exec_dump_eq_next.1 h
    rw [State.bumpI_eq, State.putBytes_eq]
    exact .inl rfl
  | ret =>
    obtain ⟨h0, rfl⟩ := exec_ret_eq_next.1 h
    exact .inr (.inr (.inr (.inl ⟨⟨s.sp.val - 1, by omega⟩, rfl⟩)))
  | call nnn =>
    obtain ⟨hh, rfl⟩ := exec_call_eq_next.1 h
    exact .inr (.inr (.inr (.inr (.inl ⟨nnn, rfl⟩))))
  | jp nnn => cases h; exact .inr (.inr (.inr (.inr (.inl ⟨nnn, rfl⟩))))
  | load x =>
    obtain ⟨_, rfl⟩ := exec_load_eq_next.1 h
    rw [State.bumpI_eq, State.setRegs_eq]
    exact .inl rfl
  | skp x =>
    obtain ⟨_, rfl⟩ := exec_skp_eq_next.1 h
    exact (skips _).elim .inl fun h => .inr (.inl h)
  | sknp x =>
    obtain ⟨_, rfl⟩ := exec_sknp_eq_next.1 h
    exact (skips _).elim .inl fun h => .inr (.inl h)
  | drw x y n => obtain ⟨_, rfl⟩ := exec_drw_eq_next.1 h; exact .inl rfl
  | sys nnn => obtain ⟨_, rfl⟩ := exec_sys_eq_next.1 h; exact .inl rfl
  | jpV0 nnn =>
    obtain ⟨_, rfl⟩ := exec_jpV0_eq_next.1 h
    exact .inr (.inr (.inr (.inr (.inr ⟨nnn, rfl⟩))))
  | ldVxK x =>
    obtain ⟨_, rfl⟩ := exec_ldVxK_eq_next.1 h
    cases s.lowestKey
    exact .inr (.inr (.inl rfl))
    exact .inl rfl
  | sub | subn | shr | shl => cases h; left; rw [(State.flagThenResult_frame ..).1]; rfl
  | seImm | sneImm | seReg | sneReg => cases h; exact (skips _).elim .inl fun h => .inr (.inl h)
  | _ => cases h; exact .inl rfl

end Sys2Proof.Machine
end

