-- ==== Sys2Proof/Laws/PerInstr.lean ====
section
/-! SUPPORT. A property of every instruction, one lemma per constructor: the word that spells it has
the fixed bits of its row of the opcode map (spec/30_encoding.md R83, R84). -/

namespace Sys2Proof.Laws.FixedBits

/-- The encoding of `i` matches the row of `opcodeTable` that `i` stands for. -/
def Statement (i : Instr) : Prop :=
  ∃ row, opcodeTable[i.rowIndex]? = some row ∧ row.matched (encode i) = true

/-- From the row and the masked word. -/
theorem of_row {i : Instr} (row : OpcodeRow) (h : opcodeTable[i.rowIndex]? = some row)
    (hw : encode i &&& row.mask = row.pattern) : Statement i :=
  ⟨row, h, by simpa [OpcodeRow.matched] using hw⟩

theorem cls : Statement (.cls) :=
  of_row _ rfl (by decide)

theorem ret : Statement (.ret) :=
  of_row _ rfl (by decide)

theorem jp (nnn : Addr) : Statement (.jp nnn) :=
  of_row _ rfl ((encAddr_mask ..).trans (by decide))

theorem call (nnn : Addr) : Statement (.call nnn) :=
  of_row _ rfl ((encAddr_mask ..).trans (by decide))

theorem seImm (x : Nibble) (kk : Byte) : Statement (.seImm x kk) :=
  of_row _ rfl ((encRK_mask ..).trans (by decide))

theorem sneImm (x : Nibble) (kk : Byte) : Statement (.sneImm x kk) :=
  of_row _ rfl ((encRK_mask ..).trans (by decide))

theorem seReg (x : Nibble) (y : Nibble) : Statement (.seReg x y) :=
  of_row _ rfl ((encRRN_mask_low ..).trans (by decide))

theorem sneReg (x : Nibble) (y : Nibble) : Statement (.sneReg x y) :=
  of_row _ rfl ((encRRN_mask_low ..).trans (by decide))

theorem ldImm (x : Nibble) (kk : Byte) : Statement (.ldImm x kk) :=
  of_row _ rfl ((encRK_mask ..).trans (by decide))

theorem addImm (x : Nibble) (kk : Byte) : Statement (.addImm x kk) :=
  of_row _ rfl ((encRK_mask ..).trans (by decide))

theorem ldReg (x : Nibble) (y : Nibble) : Statement (.ldReg x y) :=
  of_row _ rfl ((encRRN_mask_low ..).trans (by decide))

theorem orReg (x : Nibble) (y : Nibble) : Statement (.orReg x y) :=
  of_row _ rfl ((encRRN_mask_low ..).trans (by decide))

theorem andReg (x : Nibble) (y : Nibble) : Statement (.andReg x y) :=
  of_row _ rfl ((encRRN_mask_low ..).trans (by decide))

theorem xorReg (x : Nibble) (y : Nibble) : Statement (.xorReg x y) :=
  of_row _ rfl ((encRRN_mask_low ..).trans (by decide))

theorem addReg (x : Nibble) (y : Nibble) : Statement (.addReg x y) :=
  of_row _ rfl ((encRRN_mask_low ..).trans (by decide))

theorem sub (x : Nibble) (y : Nibble) : Statement (.sub x y) :=
  of_row _ rfl ((encRRN_mask_low ..).trans (by decide))

theorem shr (x : Nibble) (y : Nibble) : Statement (.shr x y) :=
  of_row _ rfl ((encRRN_mask_low ..).trans (by decide))

theorem subn (x : Nibble) (y : Nibble) : Statement (.subn x y) :=
  of_row _ rfl ((encRRN_mask_low ..).trans (by decide))

theorem shl (x : Nibble) (y : Nibble) : Statement (.shl x y) :=
  of_row _ rfl ((encRRN_mask_low ..).trans (by decide))

theorem ldI (nnn : Addr) : Statement (.ldI nnn) :=
  of_row _ rfl ((encAddr_mask ..).trans (by decide))

theorem addI (x : Nibble) : Statement (.addI x) :=
  of_row _ rfl ((encRK_mask_low ..).trans (by decide))

theorem ldF (x : Nibble) : Statement (.ldF x) :=
  of_row _ rfl ((encRK_mask_low ..).trans (by decide))

theorem ldB (x : Nibble) : Statement (.ldB x) :=
  of_row _ rfl ((encRK_mask_low ..).trans (by decide))

theorem dump (x : Nibble) : Statement (.dump x) :=
  of_row _ rfl ((encRK_mask_low ..).trans (by decide))

theorem load (x : Nibble) : Statement (.load x) :=
  of_row _ rfl ((encRK_mask_low ..).trans (by decide))

theorem rnd (x : Nibble) (kk : Byte) : Statement (.rnd x kk) :=
  of_row _ rfl ((encRK_mask ..).trans (by decide))

theorem ldVxDt (x : Nibble) : Statement (.ldVxDt x) :=
  of_row _ rfl ((encRK_mask_low ..).trans (by decide))

theorem ldDtVx (x : Nibble) : Statement (.ldDtVx x) :=
  of_row _ rfl ((encRK_mask_low ..).trans (by decide))

theorem ldStVx (x : Nibble) : Statement (.ldStVx x) :=
  of_row _ rfl ((encRK_mask_low ..).trans (by decide))

theorem skp (x : Nibble) : Statement (.skp x) :=
  of_row _ rfl ((encRK_mask_low ..).trans (by decide))

theorem sknp (x : Nibble) : Statement (.sknp x) :=
  of_row _ rfl ((encRK_mask_low ..).trans (by decide))

theorem drw (x : Nibble) (y : Nibble) (n : Nibble) : Statement (.drw x y n) :=
  of_row _ rfl ((encRRN_mask ..).trans (by decide))

theorem sys (nnn : Addr) : Statement (.sys nnn) :=
  of_row _ rfl ((encAddr_mask ..).trans (by decide))

theorem jpV0 (nnn : Addr) : Statement (.jpV0 nnn) :=
  of_row _ rfl ((encAddr_mask ..).trans (by decide))

theorem ldVxK (x : Nibble) : Statement (.ldVxK x) :=
  of_row _ rfl ((encRK_mask_low ..).trans (by decide))

end Sys2Proof.Laws.FixedBits
end

