-- ==== Sys2Proof/Tests/Slice0.lean ====
section
/-! SUPPORT. Tests of the model, and a witness for every statement that has hypotheses. Expected
results come from the spec: the vectors S1 to S11 and V1 to V109 of spec/95_test_vectors.md, the
encodings of spec/30_encoding.md, or the rule a comment names. -/

namespace Sys2Proof.Tests

open Sys2Proof Sys2Proof.Machine

/-! ### Small states and results -/

/-- R37 under R7's defaults: the start state of the vectors. -/
def start : State := State.resetWith defaultConfig

/-- The same under other parameters. -/
def startWith (f : Config → Config) : State := State.resetWith (f defaultConfig)

/-- The keypad with the listed keys pressed. -/
def keysDown (ks : List Nat) : Keys := Vector.ofFn fun k => ks.contains k.val

/-- The state with a cycle as the host's next call. -/
def beforeCycle (keys : Keys) (rnd : Byte) (s : State) : State :=
  { s with host := [.cycle keys rnd] }

/-- The state with the word at its PC and a cycle, no key pressed, as the host's next call. -/
def placed (w : Word) (s : State) : State :=
  beforeCycle (keysDown []) 0
    (s.setBytes s.pc.toNat [w.extractLsb' 8 8, w.extractLsb' 0 8])

/-- One cycle on the word, stored at PC. -/
def run (w : Word) (s : State) : Result State := step (placed w s)

/-- One cycle on the word with these inputs. -/
def runWith (keys : Keys) (rnd : Byte) (w : Word) (s : State) : Result State :=
  step (beforeCycle keys rnd (placed w s))

/-- The call completed with `Ok`, in a state that passes. -/
def completes (o : Result State) (p : State → Bool) : Bool :=
  match o with
  | .next t => t.result == .ok && p t
  | .fault _ => false
  | .refused _ => false

/-- The call returned this error, in a state that passes. -/
def returns (o : Result State) (e : Fault) (p : State → Bool) : Bool :=
  match o with
  | .next t => t.result == .err e && p t
  | .fault _ => false
  | .refused _ => false

/-- The call was refused for this reason. -/
def refuses (o : Result State) (r : Refusal) : Bool :=
  match o with
  | .next _ => false
  | .fault _ => false
  | .refused q => q == r

/-- The state a call left. -/
def got (o : Result State) : State :=
  match o with
  | .next t => t
  | .fault _ => start
  | .refused _ => start

/-- Exactly the listed cells are lit. -/
def litExactly (t : State) (cells : List (Nat × Nat)) : Bool :=
  decide (∀ (c : Fin 64) (r : Fin 32), pixel t.fb c r = cells.contains (c.val, r.val))

/-- The number of frames, with a slot's address. -/
def withFrames (sp : Fin 17) (k : Fin 16) (w : Word) (s : State) : State :=
  s.setFrames sp (s.stack.set k.val w)

/-! ### WellFormed: the one check, and what it refuses -/

theorem test_wellFormed_sys_cls : (Instr.sys 0x0E0).wellFormed = false := by decide

theorem test_wellFormed_sys_ret : (Instr.sys 0x0EE).wellFormed = false := by decide

/-- The refused terms' words spell the other two instructions. -/
theorem test_illformed_decode :
    decode (encode (.sys 0x0E0)) = .ok .cls ∧ decode (encode (.sys 0x0EE)) = .ok .ret := by decide

theorem test_wellFormed_sys_neighbours :
    (Instr.sys 0x0E1).wellFormed = true ∧ (Instr.sys 0x1E0).wellFormed = true := by decide

/-! ### Decoding: one word per constructor, from the patterns of R84 -/

/-- Class 0: `00E0`, `00EE`, `0nnn`. -/
theorem test_decode_class0 :
    decode 0b0000000011100000 = .ok .cls ∧ decode 0b0000000011101110 = .ok .ret ∧
    decode 0b0000000100100011 = .ok (.sys 0x123) := by decide

/-- `1nnn`, `2nnn`, `Annn`, `Bnnn`. -/
theorem test_decode_addr :
    decode 0b0001101010111100 = .ok (.jp 0xABC) ∧ decode 0b0010010000000001 = .ok (.call 0x401) ∧
    decode 0b1010000100100011 = .ok (.ldI 0x123) ∧
    decode 0b1011001100000000 = .ok (.jpV0 0x300) := by decide

/-- `3xkk`, `4xkk`, `6xkk`, `7xkk`, `Cxkk`. -/
theorem test_decode_rk :
    decode 0b0011000101000010 = .ok (.seImm 0x1 0x42) ∧
    decode 0b0100000101000010 = .ok (.sneImm 0x1 0x42) ∧
    decode 0b0110101001000010 = .ok (.ldImm 0xA 0x42) ∧
    decode 0b0111101011111111 = .ok (.addImm 0xA 0xFF) ∧
    decode 0b1100001100001111 = .ok (.rnd 0x3 0x0F) := by decide

/-- `5xy0`, `9xy0`. -/
theorem test_decode_skip_reg :
    decode 0b0101000100100000 = .ok (.seReg 0x1 0x2) ∧
    decode 0b1001000100100000 = .ok (.sneReg 0x1 0x2) := by decide

/-- `8xy0` to `8xy4`. -/
theorem test_decode_class8_low :
    decode 0b1000000100100000 = .ok (.ldReg 0x1 0x2) ∧
    decode 0b1000000100100001 = .ok (.orReg 0x1 0x2) ∧
    decode 0b1000000100100010 = .ok (.andReg 0x1 0x2) ∧
    decode 0b1000000100100011 = .ok (.xorReg 0x1 0x2) ∧
    decode 0b1000000100100100 = .ok (.addReg 0x1 0x2) := by decide

/-- `8xy5`, `8xy6`, `8xy7`, `8xyE`. -/
theorem test_decode_class8_high :
    decode 0b1000000100100101 = .ok (.sub 0x1 0x2) ∧
    decode 0b1000000100100110 = .ok (.shr 0x1 0x2) ∧
    decode 0b1000000100100111 = .ok (.subn 0x1 0x2) ∧
    decode 0b1000000100101110 = .ok (.shl 0x1 0x2) := by decide

/-- `Dxyn` (the source's own example pattern), `Ex9E`, `ExA1`. -/
theorem test_decode_draw_keys :
    decode 0b1101000000010101 = .ok (.drw 0x0 0x1 0x5) ∧
    decode 0b1110000110011110 = .ok (.skp 0x1) ∧
    decode 0b1110000110100001 = .ok (.sknp 0x1) := by decide

/-- `Fx1E`, `Fx29`, `Fx33`, `Fx55`, `Fx65`. -/
theorem test_decode_classF_memory :
    decode 0b1111000100011110 = .ok (.addI 0x1) ∧ decode 0b1111000100101001 = .ok (.ldF 0x1) ∧
    decode 0b1111000100110011 = .ok (.ldB 0x1) ∧ decode 0b1111001001010101 = .ok (.dump 0x2) ∧
    decode 0b1111001001100101 = .ok (.load 0x2) := by decide

/-- `Fx07`, `Fx0A`, `Fx15`, `Fx18`. -/
theorem test_decode_classF_timers :
    decode 0b1111010100000111 = .ok (.ldVxDt 0x5) ∧
    decode 0b1111001000001010 = .ok (.ldVxK 0x2) ∧
    decode 0b1111010100010101 = .ok (.ldDtVx 0x5) ∧
    decode 0b1111010100011000 = .ok (.ldStVx 0x5) := by decide

/-- V6 to V10 and S11: words of every class R86 lists. -/
theorem test_decode_undefined :
    decode 0x5121 = .error (.undefinedWord 0x5121) ∧
    decode 0x9121 = .error (.undefinedWord 0x9121) ∧
    decode 0x8008 = .error (.undefinedWord 0x8008) ∧
    decode 0xE000 = .error (.undefinedWord 0xE000) ∧
    decode 0xFFFF = .error (.undefinedWord 0xFFFF) := by decide

/-- R80: the high byte is at the lower address; one byte is no instruction. -/
theorem test_decodeBytes :
    decodeBytes [0x6A, 0x42, 0x00] = .ok (.ldImm 0xA 0x42, [0x00]) ∧
    decodeBytes [0x6A] = .error .truncated ∧
    decodeTableWord 16 0x6A42 = some (.ldImm 0xA 0x42) := by decide

/-! ### The machine, from the vectors -/

/-- V11. -/
theorem test_cls :
    completes (run 0x00E0 (start.setFb (setPixel (setPixel blank 0 0 true) 63 31 true))) (fun t =>
      litExactly t [] && t.pc == 0x202) = true := by decide

/-- V12: the popped slot keeps its address. -/
theorem test_ret :
    completes (run 0x00EE (withFrames 1 0 0x20C (start.setPc 0x300))) (fun t =>
      t.pc == 0x20C && t.sp == 0 && t.slot 0 == 0x20C) = true := by decide

/-- V13, S8. -/
theorem test_ret_underflow : returns (run 0x00EE start) .stackUnderflow (fun t =>
      t.pc == 0x200 && t.sp == 0) = true := by decide

/-- V15: an odd target. -/
theorem test_jp : completes (run 0x1301 start) (fun t => t.pc == 0x301) = true := by decide

/-- V1: the last address a fetch can read. -/
theorem test_jp_last : completes (run 0x1200 (start.setPc 0xFFE)) (fun t => t.pc == 0x200) = true := by
  decide

/-- V17. -/
theorem test_call :
    completes (run 0x2FFE (start.setPc 0x3FE)) (fun t =>
      t.pc == 0xFFE && t.sp == 1 && t.slot 0 == 0x400) = true := by decide

/-- V19, S7. -/
theorem test_call_overflow :
    returns (run 0x2400 (withFrames 16 15 0x202 start)) .stackOverflow (fun t =>
      t.pc == 0x200 && t.sp == 16 && t.slot 15 == 0x202) = true := by decide

/-- V20, V21. -/
theorem test_seImm :
    completes (run 0x3142 (start.setReg 1 0x42)) (fun t => t.pc == 0x204) = true ∧
    completes (run 0x3142 (start.setReg 1 0x41)) (fun t => t.pc == 0x202) = true := by decide

/-- V4: a skip past the last address completes. -/
theorem test_seImm_top :
    completes (run 0x3000 (start.setPc 0xFFC)) (fun t => t.pc == 0x1000) = true := by decide

/-- V22, V23. -/
theorem test_sneImm :
    completes (run 0x4142 (start.setReg 1 0x41)) (fun t => t.pc == 0x204) = true ∧
    completes (run 0x4142 (start.setReg 1 0x42)) (fun t => t.pc == 0x202) = true := by decide

/-- V24, V25. -/
theorem test_seReg :
    completes (run 0x5120 ((start.setReg 1 7).setReg 2 7)) (fun t => t.pc == 0x204) = true ∧
    completes (run 0x5120 ((start.setReg 1 7).setReg 2 8)) (fun t => t.pc == 0x202) = true := by
  decide

/-- V27, V28. -/
theorem test_sneReg :
    completes (run 0x9120 ((start.setReg 1 7).setReg 2 8)) (fun t => t.pc == 0x204) = true ∧
    completes (run 0x9120 ((start.setReg 1 7).setReg 2 7)) (fun t => t.pc == 0x202) = true := by
  decide

/-- V29, and S1's x = F. -/
theorem test_ldImm :
    completes (run 0x6A42 start) (fun t => t.reg 0xA == 0x42 && t.pc == 0x202) = true ∧
    completes (run 0x6F42 start) (fun t => t.reg 0xF == 0x42) = true := by decide

/-- V30. -/
theorem test_addImm :
    completes (run 0x7AFF ((start.setReg 0xA 0x02).setReg 0xF 0x07)) (fun t =>
      t.reg 0xA == 0x01 && t.reg 0xF == 0x07) = true := by decide

/-- V31. -/
theorem test_ldReg :
    completes (run 0x8120 (start.setReg 2 0x55)) (fun t => t.reg 1 == 0x55) = true := by decide

/-- V32. -/
theorem test_orReg :
    completes (run 0x8121 (((start.setReg 1 0xF0).setReg 2 0x0F).setReg 0xF 9)) (fun t =>
      t.reg 1 == 0xFF && t.reg 0xF == 9) = true := by decide

/-- V33. -/
theorem test_andReg :
    completes (run 0x8122 ((start.setReg 1 0xF3).setReg 2 0x3F)) (fun t => t.reg 1 == 0x33) = true := by
  decide

/-- V34. -/
theorem test_xorReg :
    completes (run 0x8123 ((start.setReg 1 0xFF).setReg 2 0x0F)) (fun t => t.reg 1 == 0xF0) = true := by
  decide

/-- S2. -/
theorem test_addReg :
    completes (run 0x8014 ((start.setReg 0 0xC8).setReg 1 0x64)) (fun t =>
      t.reg 0 == 0x2C && t.reg 0xF == 1) = true ∧
    completes (run 0x8014 ((start.setReg 0 0x10).setReg 1 0x20)) (fun t =>
      t.reg 0 == 0x30 && t.reg 0xF == 0) = true := by decide

/-- V50: the flag wins, under every setting. -/
theorem test_addReg_vf (a : VfAlias) :
    completes (run 0x8F14 (((startWith fun c => { c with vfAlias := a }).setReg 0xF 0xC8).setReg 1
      0x64)) (fun t => t.reg 0xF == 1) = true := by
  cases a <;> decide

/-- S3: the comparison is strict. -/
theorem test_sub :
    completes (run 0x8015 ((start.setReg 0 0x05).setReg 1 0x05)) (fun t =>
      t.reg 0 == 0x00 && t.reg 0xF == 0) = true ∧
    completes (run 0x8015 ((start.setReg 0 0x03).setReg 1 0x0A)) (fun t =>
      t.reg 0 == 0xF9 && t.reg 0xF == 0) = true := by decide

/-- V44 and V45 under `sequential`. -/
theorem test_sub_vf :
    completes (run 0x8F15 (((startWith fun c => { c with vfAlias := .sequential }).setReg 0xF
      0x0A).setReg 1 0x03)) (fun t => t.reg 0xF == 0xFE) = true ∧
    completes (run 0x81F5 (((startWith fun c => { c with vfAlias := .sequential }).setReg 0xF
      0x03).setReg 1 0x0A)) (fun t => t.reg 1 == 0x09 && t.reg 0xF == 1) = true := by decide

/-- V41: y is ignored. -/
theorem test_shr :
    completes (run 0x8456 ((start.setReg 4 0x80).setReg 5 0x01)) (fun t =>
      t.reg 4 == 0x40 && t.reg 0xF == 0 && t.reg 5 == 0x01) = true := by decide

/-- V48 under `text_order` and `flag_last`. -/
theorem test_shr_vf :
    completes (run 0x8F06 (start.setReg 0xF 0x05)) (fun t => t.reg 0xF == 0x02) = true ∧
    completes (run 0x8F06 ((startWith fun c => { c with vfAlias := .flagLast }).setReg 0xF 0x05))
      (fun t => t.reg 0xF == 0x01) = true := by decide

/-- V38, V39. -/
theorem test_subn :
    completes (run 0x8017 ((start.setReg 0 0x03).setReg 1 0x0A)) (fun t =>
      t.reg 0 == 0x07 && t.reg 0xF == 1) = true ∧
    completes (run 0x8017 ((start.setReg 0 0x0A).setReg 1 0x03)) (fun t =>
      t.reg 0 == 0xF9 && t.reg 0xF == 0) = true := by decide

/-- V46 and V47 under `sequential`. -/
theorem test_subn_vf :
    completes (run 0x8F17 (((startWith fun c => { c with vfAlias := .sequential }).setReg 0xF
      0x03).setReg 1 0x0A)) (fun t => t.reg 0xF == 0x09) = true ∧
    completes (run 0x81F7 (((startWith fun c => { c with vfAlias := .sequential }).setReg 0xF
      0x0A).setReg 1 0x03)) (fun t => t.reg 1 == 0xFE && t.reg 0xF == 1) = true := by decide

/-- V42, V43. -/
theorem test_shl :
    completes (run 0x840E (start.setReg 4 0x81)) (fun t => t.reg 4 == 0x02 && t.reg 0xF == 1) = true ∧
    completes (run 0x840E (start.setReg 4 0x40)) (fun t => t.reg 4 == 0x80 && t.reg 0xF == 0) =
      true := by decide

/-- V49 under `sequential` and `flag_last`. -/
theorem test_shl_vf :
    completes (run 0x8F0E ((startWith fun c => { c with vfAlias := .sequential }).setReg 0xF 0x81))
      (fun t => t.reg 0xF == 0x02) = true ∧
    completes (run 0x8F0E ((startWith fun c => { c with vfAlias := .flagLast }).setReg 0xF 0x81))
      (fun t => t.reg 0xF == 0x01) = true := by decide

/-- V52. -/
theorem test_ldI : completes (run 0xA123 start) (fun t => t.i == 0x123) = true := by decide

/-- V54, V55. -/
theorem test_addI :
    completes (run 0xF11E ((start.setI 0xFFF).setReg 1 1)) (fun t => t.i == 0x1000) = true ∧
    completes (run 0xF11E ((start.setI 0xFFFF).setReg 1 1)) (fun t => t.i == 0) = true := by decide

/-- V57, V58. -/
theorem test_ldF :
    completes (run 0xF129 (start.setReg 1 0x1A)) (fun t => t.i == 0x032) = true ∧
    completes (run 0xF129 (start.setReg 1 0x0F)) (fun t => t.i == 0x04B) = true := by decide

/-- S10, V61. -/
theorem test_ldB :
    completes (run 0xF133 ((start.setI 0x300).setReg 1 157)) (fun t =>
      t.byteAt 0x300 == 1 && t.byteAt 0x301 == 5 && t.byteAt 0x302 == 7 && t.i == 0x300) = true ∧
    completes (run 0xF133 ((start.setI 0xFFD).setReg 1 9)) (fun t => t.byteAt 0xFFF == 9) = true := by
  decide

/-- V62, V63, V65. -/
theorem test_ldB_edges :
    returns (run 0xF133 ((start.setI 0xFFE).setReg 1 9)) .memoryFault (fun t =>
      t.pc == 0x200 && t.byteAt 0xFFE == 0) = true ∧
    refuses (run 0xF133 ((start.setI 0x04E).setReg 1 9)) (.fontRegionWrite 0x04E) = true ∧
    completes (run 0xF133 (((startWith fun c => { c with fontWrite := .ignore }).setI 0x04E).setReg 1
      123)) (fun t => t.byteAt 0x04E == 0x80 && t.byteAt 0x04F == 0x80 && t.byteAt 0x050 == 3) =
      true := by decide

/-- V68. -/
theorem test_dump :
    completes (run 0xF255 (((((startWith fun c => { c with lsIIncrement := .xPlus1 }).setI
      0x300).setReg 0 1).setReg 1 2).setReg 2 3)) (fun t =>
      t.byteAt 0x300 == 1 && t.byteAt 0x301 == 2 && t.byteAt 0x302 == 3 && t.byteAt 0x303 == 0 &&
      t.i == 0x303) = true := by decide

/-- V71, V72, V73. -/
theorem test_dump_edges :
    completes (run 0xFF55 ((start.setI 0xFF0).setReg 0xF 0x99)) (fun t =>
      t.byteAt 0xFFF == 0x99 && t.i == 0xFF0) = true ∧
    returns (run 0xFF55 ((start.setI 0xFF1).setReg 0 9)) .memoryFault (fun t =>
      t.byteAt 0xFF1 == 0) = true ∧
    refuses (run 0xF255 (start.setI 0x040)) (.fontRegionWrite 0x040) = true := by decide

/-- V74, V76. -/
theorem test_load :
    completes (run 0xF265 ((start.setBytes 0x300 [1, 2, 3, 4]).setI 0x300)) (fun t =>
      t.reg 0 == 1 && t.reg 1 == 2 && t.reg 2 == 3 && t.reg 3 == 0 && t.i == 0x300) = true ∧
    completes (run 0xF465 start) (fun t =>
      t.reg 0 == 0xF0 && t.reg 1 == 0x90 && t.reg 4 == 0xF0) = true := by decide

/-- V77. -/
theorem test_load_edge :
    returns (run 0xF165 ((start.setBytes 0xFFF [9]).setI 0xFFF)) .memoryFault (fun t =>
      t.reg 0 == 0) = true := by decide

/-- V78, V80. -/
theorem test_rnd :
    completes (runWith (keysDown []) 0xAB 0xC30F start) (fun t => t.reg 3 == 0x0B) = true ∧
    completes (runWith (keysDown []) 0x5C 0xC300 start) (fun t => t.reg 3 == 0) = true := by decide

/-- V81. -/
theorem test_ldVxDt :
    completes (run 0xF507 (start.setDt 0x2A)) (fun t => t.reg 5 == 0x2A) = true := by decide

/-- V82. -/
theorem test_ldDtVx :
    completes (run 0xF515 (start.setReg 5 0x3C)) (fun t => t.dt == 60 && t.st == 0) = true := by
  decide

/-- V83. -/
theorem test_ldStVx :
    completes (run 0xF518 (start.setReg 5 0x08)) (fun t => t.st == 8 && t.soundActive) = true := by
  decide

/-- V84, V85. -/
theorem test_skp :
    completes (runWith (keysDown [5]) 0 0xE19E (start.setReg 1 5)) (fun t => t.pc == 0x204) = true ∧
    completes (runWith (keysDown [4]) 0 0xE19E (start.setReg 1 5)) (fun t => t.pc == 0x202) = true := by
  decide

/-- V88, V89. -/
theorem test_skp_range :
    refuses (runWith (keysDown [5]) 0 0xE19E (start.setReg 1 0x15)) (.keyIndexOutOfRange 0x15) =
      true ∧
    completes (runWith (keysDown [5]) 0 0xE19E
      ((startWith fun c => { c with keyIndexOor := .lowNibble }).setReg 1 0x15))
      (fun t => t.pc == 0x204) = true := by decide

/-- V86, V87. -/
theorem test_sknp :
    completes (runWith (keysDown [5]) 0 0xE1A1 (start.setReg 1 5)) (fun t => t.pc == 0x202) = true ∧
    completes (runWith (keysDown [4]) 0 0xE1A1 (start.setReg 1 5)) (fun t => t.pc == 0x204) = true := by
  decide

/-- V90: both axes wrap. -/
theorem test_drw_wraps :
    completes (run 0xD012 ((((start.setBytes 0x300 [0xC1, 0x80]).setI 0x300).setReg 0 62).setReg 1
      31)) (fun t =>
        litExactly t [(62, 31), (63, 31), (5, 31), (62, 0)] && t.reg 0xF == 0) = true := by decide

/-- V91: a collision. -/
theorem test_drw_collision :
    completes (run 0xD011 (((start.setBytes 0x300 [0xA0]).setI 0x300).setFb
      (setPixel (setPixel blank 0 0 true) 1 0 true))) (fun t =>
        litExactly t [(1, 0), (2, 0)] && t.reg 0xF == 1) = true := by decide

/-- V98, V99. -/
theorem test_sys :
    refuses (run 0x0123 start) (.undescribedInstruction 0x0123) = true ∧
    returns (run 0x0000 (startWith fun c => { c with optSys := .unsupported }))
      (.unsupportedOpcode 0x0000) (fun t => t.pc == 0x200) = true ∧
    completes (run 0x0123 (startWith fun c => { c with optSys := .standard })) (fun t =>
      t.pc == 0x202) = true := by decide

/-- V101. -/
theorem test_jpV0 :
    refuses (run 0xBFFF (start.setReg 0 0xFF)) (.undescribedInstruction 0xBFFF) = true ∧
    completes (run 0xBFFF ((startWith fun c => { c with optJpV0 := .standard }).setReg 0 0xFF))
      (fun t => t.pc == 0x10FE) = true := by decide

/-- V102. -/
theorem test_ldVxK :
    returns (runWith (keysDown [3, 9]) 0 0xF20A (startWith fun c => { c with optWaitKey := .unsupported }))
      (.unsupportedOpcode 0xF20A) (fun t => t.reg 2 == 0) = true ∧
    completes (runWith (keysDown [3, 9]) 0 0xF20A
      (startWith fun c => { c with optWaitKey := .standard })) (fun t =>
        t.reg 2 == 3 && t.pc == 0x202) = true := by decide

/-- V103. -/
theorem test_ldVxK_none :
    completes (run 0xF20A (startWith fun c => { c with optWaitKey := .standard })) (fun t =>
      t.reg 2 == 0 && t.pc == 0x200) = true := by decide

/-- S11, V5. -/
theorem test_undefined_word :
    returns (run 0x5121 start) (.unsupportedOpcode 0x5121) (fun t => t.pc == 0x200) = true ∧
    refuses (run 0x5121 (startWith fun c => { c with undefinedWord := .refused }))
      (.undefinedWord 0x5121) = true := by decide

/-- V2, V3. -/
theorem test_fetch_fault :
    returns (step (beforeCycle (keysDown []) 0 (start.setPc 0xFFF))) .memoryFault (fun t =>
      t.pc == 0xFFF) = true ∧
    returns (step (beforeCycle (keysDown []) 0 (start.setPc 0x1000))) .memoryFault (fun t =>
      t.pc == 0x1000) = true := by decide

/-- V105, V104. -/
theorem test_tick :
    completes (step { (start.setDt 255).setSt 1 with host := [.tick] }) (fun t =>
      t.dt == 254 && t.st == 0 && !t.soundActive) = true ∧
    completes (step { start with host := [.tick] }) (fun t => t.dt == 0 && t.st == 0) = true := by
  decide

/-- V108, V109. -/
theorem test_load_image :
    completes (step { start with host := [.loadImage [0x12, 0x34]] }) (fun t =>
      t.byteAt 0x200 == 0x12 && t.byteAt 0x201 == 0x34 && t.byteAt 0x202 == 0 &&
      refuses (step { t with host := [.loadImage []] }) .loadNotAtStart) = true := by decide

/-- The image of V107 as the host's next call. -/
def longLoad : State := { start with host := [.loadImage (List.replicate 3585 0xAA)] }

/-- V107: no byte of a longer image is written. -/
theorem test_load_image_too_large (bytes : List Byte) (h : bytes.length > maxImage) :
    step { start with host := [.loadImage bytes] } =
      .next { start with result := .err .imageTooLarge } := by
  have h : loadImage start bytes = raise .imageTooLarge := by
    rw [loadImage, if_neg (by decide), if_pos h]
  exact congrArg (settle start) h

/-- R281, R288: after an error the host goes on, with a tick (which returns nothing, so the result
stands) and a cycle of other inputs. -/
theorem test_error_goes_on :
    (let s := { (placed 0x00EE start).setDt 5 with
      host := [.cycle (keysDown []) 0, .tick, .cycle (keysDown []) 1] }
    returns (step s) .stackUnderflow fun t =>
      returns (step t) .stackUnderflow fun u =>
        u.dt == 4 && returns (step u) .stackUnderflow fun w => w.dt == 4 && w.rnd == 1) = true := by
  decide

/-- R274: a cycle no schedule fixes that returns an error keeps the free ticks before it. -/
theorem test_free_ticks_count (b : Byte) :
    ∃ t, step ((start.setPc 0xFFF).setDt b) = .next t ∧ t.result = .err .memoryFault ∧
      t.dt = countDownBy (Config.freeTicks 0) b := by
  refine ⟨_, (step_of_unmarked (s := (start.setPc 0xFFF).setDt b) rfl rfl).trans
    (settle_eq_next.2 (.inr ⟨.memoryFault, ?_, rfl⟩)), rfl, rfl⟩
  have h : ∀ u : State, u.pc = 0xFFF → runCycle u = .fault .memoryFault := by
    intro u hu
    rw [runCycle, fetchWord, memRead2, hu, if_pos (by decide)]
    rfl
  exact h _ rfl

/-- R314: a load after a first cycle that returned an error is refused. -/
theorem test_load_after_failed_cycle :
    (let s := { placed 0x00EE start with host := [.cycle (keysDown []) 0, .loadImage []] }
    returns (step s) .stackUnderflow fun t => refuses (step t) .loadNotAtStart) = true := by decide

/-- R276: the mark stays. -/
theorem test_refusal_mark :
    (stateAfter (placed 0x0123 start)).refusal = some (.undescribedInstruction 0x0123) ∧
    refuses (step (stateAfter (placed 0x0123 start))) (.undescribedInstruction 0x0123) = true ∧
    runEnd (stateAfter (placed 0x0123 start)) = none := by decide

/-- R298: the three ends of a run, and a step that is none. -/
theorem test_runEnd :
    runEnd (placed 0x1200 start) = some .normal ∧
    runEnd (placed 0x00EE start) = some (.faulted .stackUnderflow) ∧
    runEnd (placed 0x0123 start) = some (.refused (.undescribedInstruction 0x0123)) ∧
    runEnd (placed 0x6A42 start) = none := by decide

/-- R298: a failed image load ends no run. -/
theorem test_runEnd_load : runEnd longLoad = none := rfl

/-- R298: the self-jump of every program of section 3. -/
theorem test_selfJump : selfJump (placed 0x1200 start) = true ∧ selfJump (placed 0x1202 start) = false := by
  decide

/-- `withFetchWord`: the first step after reset runs the word placed. -/
theorem test_withFetchWord :
    completes (step (State.reset.withFetchWord 16 0x6A42)) (fun t => t.reg 0xA == 0x42) = true := by
  decide

/-! ### A witness for the hypotheses of every statement, clause by clause -/

/-- A call that completed gave the state `got` names. -/
theorem next_got {o : Result State} (h : completes o (fun _ => true) = true) : o = .next (got o) := by
  cases o with
  | next t => rfl
  | fault e => cases h
  | refused r => cases h

theorem test_witness_RetPopsTheReturnAddress :
    (withFrames 1 0 0x20C start).sp.val = (0 : Fin 16).val + 1 ∧
    (withFrames 16 15 0x20C start).sp.val = (15 : Fin 16).val + 1 ∧ start.sp.val = 0 := by decide

theorem test_witness_CallPushesTheReturnAddress :
    start.sp.val = (0 : Fin 16).val ∧ (withFrames 15 0 0 start).sp.val = (15 : Fin 16).val ∧
    (withFrames 16 0 0 start).sp.val = 16 := by decide

/-- A state whose CALL goes to an instruction that completes. -/
def callState : State := beforeCycle (keysDown []) 0 (start.setBytes 0x300 [0x6A, 0x42])

theorem test_witness_RetReturnsPastTheMatchingCall :
    ∃ t u, exec (.call 0x300) callState = .next t ∧ StaysAbove callState.sp.val t u ∧
      u.sp.val = callState.sp.val + 1 :=
  ⟨_, _, next_got (by decide), .step (.refl _) (next_got (by decide)) (by decide), by decide⟩

theorem test_witness_SixteenCallsNestAndNoMore :
    (List.replicate 16 (0x200 : Addr)).length = 16 ∧ start.sp.val = 0 := by decide

theorem test_witness_PcAdvancesByTwoUnlessRedirected :
    (∃ t, exec .cls start = .next t ∧ pcRule .cls = .plain) ∧
    ∃ t, exec (.seImm 0 0) start = .next t ∧ pcRule (.seImm 0 0) = .skip :=
  ⟨⟨_, next_got (by decide), rfl⟩, ⟨_, next_got (by decide), rfl⟩⟩

/-- One register not VF, another not VF, and VF with `text_order`: for the five flag-writing
statements. -/
theorem test_witness_flag_statements :
    ((0 : Nibble) ≠ vF ∧ (1 : Nibble) ≠ vF) ∧ (0xE : Nibble) ≠ vF ∧
    start.config.vfAlias = .textOrder ∧
    (startWith fun c => { c with vfAlias := .flagLast }).config.vfAlias = .flagLast := by decide

/-- Every clause, under every setting. -/
theorem test_witness_VfAliasOutcomes (a : VfAlias) :
    ∃ s : State, s.config.vfAlias = a ∧ (1 : Nibble) ≠ vF ∧
      (∃ t, exec (.addReg vF 1) s = .next t) ∧ (∃ t, exec (.addReg 1 vF) s = .next t) ∧
      (∃ t, exec (.sub vF 1) s = .next t) ∧ (∃ t, exec (.sub 1 vF) s = .next t) ∧
      (∃ t, exec (.sub vF vF) s = .next t) ∧ (∃ t, exec (.subn vF 1) s = .next t) ∧
      (∃ t, exec (.subn 1 vF) s = .next t) ∧ (∃ t, exec (.subn vF vF) s = .next t) ∧
      (∃ t, exec (.shr vF 1) s = .next t) ∧ ∃ t, exec (.shl vF 1) s = .next t :=
  ⟨startWith fun c => { c with vfAlias := a }, rfl, by decide, ⟨_, rfl⟩, ⟨_, rfl⟩, ⟨_, rfl⟩,
    ⟨_, rfl⟩, ⟨_, rfl⟩, ⟨_, rfl⟩, ⟨_, rfl⟩, ⟨_, rfl⟩, ⟨_, rfl⟩, ⟨_, rfl⟩⟩

/-- I at the limits of each clause of Fx33's statement; the last state is one whose store reaches
across the font's last byte. -/
theorem test_witness_BcdStoresThreeDigits :
    (start.setI 0xFFE).i.toNat + 2 > 0xFFF ∧
    ((start.setI 0x04F).i.toNat ≤ 0x04F ∧ start.config.fontWrite = .refused) ∧
    ((start.setI 0x050).i.toNat + 2 ≤ 0xFFF ∧ 0x04F < (start.setI 0x050).i.toNat) ∧
    (start.setI 0xFFD).i.toNat + 2 ≤ 0xFFF ∧
    ((State.reset.setI 0x04F).i.toNat + 2 ≤ 0xFFF ∧ State.reset.config.fontWrite ≠ .refused) ∧
    State.reset.config.fontWrite = .ignore ∧
    (startWith fun c => { c with fontWrite := .write }).config.fontWrite = .write := by decide

theorem test_witness_DumpStoresRegisters :
    (start.setI 0xFF1).i.toNat + (0xF : Nibble).toNat > 0xFFF ∧
    ((start.setI 0x04F).i.toNat ≤ 0x04F ∧ start.config.fontWrite = .refused) ∧
    ((start.setI 0x050).i.toNat + (0xF : Nibble).toNat ≤ 0xFFF ∧
      0x04F < (start.setI 0x050).i.toNat) ∧
    (start.setI 0xFF0).i.toNat + (0xF : Nibble).toNat ≤ 0xFFF ∧
    ((State.reset.setI 0x04F).i.toNat + (1 : Nibble).toNat ≤ 0xFFF ∧
      State.reset.config.fontWrite ≠ .refused) ∧
    (1 : Nibble).toNat ≤ (1 : Nibble).toNat ∧
    0x04F < (State.reset.setI 0x04F).i.toNat + (1 : Nibble).toNat := by decide

theorem test_witness_LoadFillsRegisters :
    (start.setI 0xFFF).i.toNat + (1 : Nibble).toNat > 0xFFF ∧
    (start.setI 0xFFF).i.toNat + (0 : Nibble).toNat ≤ 0xFFF ∧
    (0 : Nibble).toNat < (1 : Nibble).toNat := by decide

theorem test_witness_KeypadSkips :
    (((start.setReg 1 15).reg 1).toNat % 16 = (15 : Fin 16).val ∧
      ((start.setReg 1 15).reg 1).toNat ≤ 15) ∧
    (((State.reset.setReg 1 0xFF).reg 1).toNat % 16 = (15 : Fin 16).val ∧
      (State.reset.setReg 1 0xFF).config.keyIndexOor = .lowNibble) ∧
    ((start.setReg 1 16).reg 1).toNat > 15 ∧ start.config.keyIndexOor = .refused := by decide

/-- The limits of the address check, `n = 0` included. -/
theorem test_witness_DrawInvertsCoveredCells_addresses :
    (0 < (2 : Nibble).toNat ∧ (start.setI 0xFFF).i.toNat + (2 : Nibble).toNat - 1 > 0xFFF) ∧
    (start.setI 0xFFF).i.toNat + (1 : Nibble).toNat - 1 ≤ 0xFFF ∧ (0 : Nibble).toNat = 0 := by decide

/-- The first row of glyph 0, `F0`, at (0, 0): a covered cell, one that is not, and both cases of a
collision. -/
theorem test_witness_DrawInvertsCoveredCells_cells :
    SpriteCovers start 0 0 1 0 0 ∧ ¬SpriteCovers start 0 0 1 4 0 ∧
    (∃ c r, SpriteCovers (start.setFb (setPixel blank 0 0 true)) 0 0 1 c r ∧
      pixel (start.setFb (setPixel blank 0 0 true)).fb c r = true) ∧
    ¬∃ c r, SpriteCovers start 0 0 1 c r ∧ pixel start.fb c r = true := by
  refine ⟨⟨0, 0, by decide, by decide, by decide, by decide, by decide⟩, ?_,
    ⟨0, 0, ⟨0, 0, by decide, by decide, by decide, by decide, by decide⟩, by decide⟩, ?_⟩
  · rintro ⟨j, k, hj, hk, hb, hc, -⟩
    obtain rfl : k = 0 := Nat.lt_one_iff.1 hk
    have all : ∀ j : Fin 8, (start.byteAt (start.i.toNat + 0)).getLsbD (7 - j.val) = true →
        4 ≠ ((start.reg 0).toNat + j.val) % 64 := by decide
    exact all ⟨j, hj⟩ hb hc
  · rintro ⟨c, r, -, h⟩
    have : pixel blank c r = true := h
    rw [pixel_blank] at this
    cases this

theorem test_witness_DrawTwiceRestoresTheScreen :
    ∃ t u, (0 : Nibble) ≠ vF ∧ exec (.drw 0 0 5) start = .next t ∧ exec (.drw 0 0 5) t = .next u :=
  ⟨_, _, by decide, next_got (by decide), next_got (by decide)⟩

theorem test_witness_optional_statements (o : OptOutcome) :
    (startWith fun c => { c with optSys := o }).config.optSys = o ∧
    (startWith fun c => { c with optJpV0 := o }).config.optJpV0 = o ∧
    (startWith fun c => { c with optWaitKey := o }).config.optWaitKey = o := ⟨rfl, rfl, rfl⟩

/-- Keys 3 and 9 pressed, key 15 alone, and none. -/
theorem test_witness_WaitKeyFollowsItsParameter :
    ((keysDown [3, 9])[(3 : Fin 16)] = true ∧
      ∀ j : Fin 16, j < 3 → (keysDown [3, 9])[j] = false) ∧
    ((keysDown [15])[(15 : Fin 16)] = true ∧
      ∀ j : Fin 16, j < 15 → (keysDown [15])[j] = false) ∧
    ∀ k : Fin 16, start.keys[k] = false := by decide

/-- A scheduled cycle at the last PC that can be fetched from, a free one, and a schedule. -/
theorem test_witness_StepExecutesTheDecodedInstruction :
    start.refusal = none ∧ (placed 0x6A42 (start.setPc 0xFFE)).refusal = none ∧
    (∃ v keys rnd, takeCall (placed 0x6A42 (start.setPc 0xFFE)) = (.cycle keys rnd, v) ∧
      v.pc.toNat + 1 ≤ 0xFFF ∧
      decode (v.byteAt v.pc.toNat ++ v.byteAt (v.pc.toNat + 1)) = .ok (.ldImm 0xA 0x42)) ∧
    (∃ v keys rnd, takeCall start = (.cycle keys rnd, v) ∧ v.pc.toNat + 1 ≤ 0xFFF ∧
      decode (v.byteAt v.pc.toNat ++ v.byteAt (v.pc.toNat + 1)) = .ok (.sys 0)) ∧
    (∃ c rest, callState.host = c :: rest) ∧ start.host = [] :=
  ⟨rfl, rfl, ⟨_, _, _, rfl, by decide, by decide⟩, ⟨_, _, _, rfl, by decide, by decide⟩,
    ⟨_, _, rfl⟩, rfl⟩

theorem test_witness_FetchReadsTwoBytesOrFaults :
    (start.setPc 0xFFE).pc.toNat + 1 ≤ 0xFFF ∧ (start.setPc 0xFFF).pc.toNat ≥ 0xFFF ∧
    ∃ v keys rnd, (start.setPc 0xFFF).refusal = none ∧
      takeCall (start.setPc 0xFFF) = (.cycle keys rnd, v) ∧ v.pc.toNat ≥ 0xFFF :=
  ⟨by decide, by decide, _, _, _, rfl, rfl, by decide⟩

theorem test_witness_UndefinedWordsAreUnsupported :
    ∃ v keys rnd, (placed 0x5121 start).refusal = none ∧
      takeCall (placed 0x5121 start) = (.cycle keys rnd, v) ∧
      fetchWord v = .next 0x5121 ∧ ∀ ins, decode 0x5121 ≠ .ok ins :=
  ⟨_, _, _, rfl, rfl, rfl, fun ins h => by
    rw [show decode 0x5121 = .error (.undefinedWord 0x5121) from by decide] at h
    cases h⟩

/-- `k` at both ends of its range, and a store into the font region under `FONT_WRITE = write`. -/
theorem test_witness_StoreIsSeenByTheNextFetch :
    (∃ t, exec (.dump 1) ((start.setPc 0x300).setI 0x302) = .next t ∧
      (0 : Nibble).toNat + 1 ≤ (1 : Nibble).toNat ∧ t.pc.toNat = 0x302 + (0 : Nibble).toNat) ∧
    (∃ t, exec (.dump 15) ((start.setPc 0x300).setI 0x2F4) = .next t ∧
      (14 : Nibble).toNat + 1 ≤ (15 : Nibble).toNat ∧ t.pc.toNat = 0x2F4 + (14 : Nibble).toNat) ∧
    ∃ t, exec (.dump 1) (((startWith fun c => { c with fontWrite := .write }).setPc 0x04D).setI
      0x04F) = .next t ∧ t.pc.toNat = 0x04F + (0 : Nibble).toNat :=
  ⟨⟨_, next_got (by decide), by decide, by decide⟩, ⟨_, next_got (by decide), by decide, by decide⟩,
    ⟨_, next_got (by decide), by decide⟩⟩

/-- A cycle and a load that return an error. -/
theorem test_witness_ErrorsAreReturnedAndTheMachineGoesOn :
    (∃ v t keys rnd, takeCall (placed 0x00EE start) = (.cycle keys rnd, v) ∧
      step (placed 0x00EE start) = .next t ∧ t.result = .err .stackUnderflow) ∧
    ∃ t, step longLoad = .next t ∧ t.result = .err .imageTooLarge :=
  ⟨⟨_, _, _, _, rfl, rfl, by decide⟩, ⟨_, test_load_image_too_large _ (by rw [List.length_replicate]; decide), rfl⟩⟩

theorem test_witness_TheRefusalMarkIsNeverCleared :
    step (placed 0x0123 start) = .refused (.undescribedInstruction 0x0123) ∧
    (start.setRefusal .loadNotAtStart).refusal = some .loadNotAtStart ∧
    ∃ t, step (placed 0x6A42 start) = .next t :=
  ⟨rfl, rfl, _, next_got (by decide)⟩

/-- The lowest active frame, over a CALL. -/
theorem test_witness_StepKeepsActiveFrames :
    ∃ t, step (placed 0x2400 (withFrames 1 0 0x20C start)) = .next t ∧
      (0 : Fin 16).val < (placed 0x2400 (withFrames 1 0 0x20C start)).sp.val ∧
      (0 : Fin 16).val < t.sp.val :=
  ⟨_, next_got (by decide), by decide, by decide⟩

theorem test_witness_SelfJumpRepeats :
    (placed 0x1200 start).refusal = none ∧
    ∃ keys rnd rest, (placed 0x1200 start).host = .cycle keys rnd :: rest ∧
      selfJump (placed 0x1200 start) = true :=
  ⟨rfl, _, _, _, rfl, by decide⟩

/-- The statements about the other host calls. -/
theorem test_witness_host_calls :
    ({ start with host := [.tick] } : State).refusal = none ∧
    ({ start with host := [.tick] } : State).host = [.tick] ∧
    ({ start with host := [.readFramebuffer] } : State).host = [.readFramebuffer] ∧
    ({ start with host := [.soundActive] } : State).host = [.soundActive] ∧
    ({ start with host := [.loadImage [0x12]] } : State).host = [.loadImage [0x12]] :=
  ⟨rfl, rfl, rfl, rfl, rfl⟩

/-- The longest image and its last byte, the empty one, the shortest that is too long, and a load
that is not at the start. -/
theorem test_witness_LoadImageFillsMemoryOnce :
    start.boot = .fresh ∧ ([] : List Byte).length ≤ 3584 ∧
    (List.replicate 3584 (0xAA : Byte)).length ≤ 3584 ∧
    (List.replicate 3584 (0xAA : Byte))[3583]? = some 0xAA ∧
    (List.replicate 3585 (0xAA : Byte)).length > 3584 ∧ start.setLoaded.boot ≠ .fresh := by
  simp only [List.length_replicate, List.getElem?_replicate]
  decide

/-- A cycle, after a load and after a cycle. -/
theorem test_witness_BootOrderNeverGoesBack :
    (∃ t, step (placed 0x6A42 (start.beginCycle (keysDown []) 0)) = .next t ∧
      (placed 0x6A42 (start.beginCycle (keysDown []) 0)).boot = .running) ∧
    ∃ t v keys rnd, step (placed 0x6A42 start.setLoaded) = .next t ∧
      (placed 0x6A42 start.setLoaded).boot ≠ .fresh ∧
      takeCall (placed 0x6A42 start.setLoaded) = (.cycle keys rnd, v) :=
  ⟨⟨_, next_got (by decide), by decide⟩, _, _, _, _, next_got (by decide), by decide, rfl⟩

theorem test_witness_ResetLeavesTheInitialState : 0x050 ≤ 0x050 := by decide

theorem test_witness_DecodeOfEncode :
    (Instr.sys 0xFFF).wellFormed = true ∧ (Instr.shr 0xF 0xF).wellFormed = true := by decide

theorem test_witness_EncodeOfDecode : decode 0x8344 = .ok (.addReg 3 4) := by decide

/-- Both pairs of rows that share a word. -/
theorem test_witness_OpcodeRowsDoNotOverlap :
    (∃ rj rk, opcodeTable[0]? = some rj ∧ opcodeTable[32]? = some rk ∧
      rj.matched 0x00E0 = true ∧ rk.matched 0x00E0 = true) ∧
    ∃ rj rk, opcodeTable[1]? = some rj ∧ opcodeTable[32]? = some rk ∧
      rj.matched 0x00EE = true ∧ rk.matched 0x00EE = true :=
  ⟨⟨_, _, rfl, rfl, by decide, by decide⟩, ⟨_, _, rfl, rfl, by decide, by decide⟩⟩

/-- The invariant, a parameter and the font: a step from a state that meets all of it. -/
theorem test_witness_StepKeepsTheInvariant :
    ∃ t, (placed 0xF133 (start.setI 0x300)).Inv ∧
      (placed 0xF133 (start.setI 0x300)).config.fontWrite ≠ .write ∧
      step (placed 0xF133 (start.setI 0x300)) = .next t :=
  ⟨_, by decide, by decide, next_got (by decide)⟩

/-- At the invariant's limits: PC 0x10FE after Bnnn, a slot of 0x1000 after a CALL at 0xFFE. -/
theorem test_witness_StepKeepsTheInvariant_limits :
    (start.setPc 0x10FE).Inv ∧ (withFrames 1 0 0x1000 start).Inv := by decide

theorem test_witness_OnlyClsAndDrawWriteTheScreen :
    ∃ t, step (placed 0xD005 start) = .next t ∧
      pixel t.fb 0 0 ≠ pixel (placed 0xD005 start).fb 0 0 :=
  ⟨_, next_got (by decide), by decide⟩

theorem test_witness_OnlyCallAndRetTouchTheStack :
    (∃ t, step (placed 0x2400 start) = .next t ∧ t.sp ≠ (placed 0x2400 start).sp ∧
      t.slot 0 ≠ (placed 0x2400 start).slot 0) ∧
    ∃ t, step (placed 0x00EE (withFrames 1 0 0x20C start)) = .next t ∧
      t.sp ≠ (placed 0x00EE (withFrames 1 0 0x20C start)).sp :=
  ⟨⟨_, next_got (by decide), by decide, by decide⟩, ⟨_, next_got (by decide), by decide⟩⟩

/-- The three ways a byte of memory changes. -/
theorem test_witness_OnlyStoresAndLoadsWriteMemory :
    (∃ t, step { start with host := [.loadImage [0x12]] } = .next t ∧
      t.byteAt 0x200 ≠ start.byteAt 0x200) ∧
    (∃ t, step (placed 0xF133 ((start.setI 0x300).setReg 1 9)) = .next t ∧
      t.byteAt 0x302 ≠ (placed 0xF133 ((start.setI 0x300).setReg 1 9)).byteAt 0x302) ∧
    ∃ t, step (placed 0xF155 ((start.setI 0x300).setReg 1 9)) = .next t ∧
      t.byteAt 0x301 ≠ (placed 0xF155 ((start.setI 0x300).setReg 1 9)).byteAt 0x301 :=
  ⟨⟨_, next_got (by decide), by decide⟩, ⟨_, next_got (by decide), by decide⟩,
    ⟨_, next_got (by decide), by decide⟩⟩

theorem test_witness_CyclesKeepTheTimers :
    (∃ t, exec (.ldDtVx 5) (start.setReg 5 8) = .next t ∧ t.dt ≠ (start.setReg 5 8).dt) ∧
    ∃ t, exec (.ldStVx 5) (start.setReg 5 8) = .next t ∧ t.st ≠ (start.setReg 5 8).st :=
  ⟨⟨_, next_got (by decide), by decide⟩, ⟨_, next_got (by decide), by decide⟩⟩

theorem test_witness_OnlyDestinationsAndFlagsAreWritten :
    ∃ t, exec (.load 2) start = .next t ∧ (3 : Nibble) ∉ regsWritten (.load 2) :=
  ⟨_, next_got (by decide), by decide⟩

theorem test_witness_noninterference :
    (∀ x kk, Instr.skp 0 ≠ .rnd x kk) ∧
    ∀ x, Instr.rnd 0 0 ≠ .skp x ∧ Instr.rnd 0 0 ≠ .sknp x ∧ Instr.rnd 0 0 ≠ .ldVxK x :=
  ⟨nofun, fun _ => ⟨nofun, nofun, nofun⟩⟩

end Sys2Proof.Tests
end

section
/-! PROOFS. The reset state and the defaults of the parameters (spec/00_scope.md R7,
spec/10_state.md R33 and R37). -/

namespace Sys2Proof.Machine

section ResetFields

variable (c : Config)

@[simp] theorem State.resetWith_config : (State.resetWith c).config = c := rfl
@[simp] theorem State.resetWith_boot : (State.resetWith c).boot = .fresh := rfl
@[simp] theorem State.resetWith_host : (State.resetWith c).host = [] := rfl
@[simp] theorem State.resetWith_result : (State.resetWith c).result = .ok := rfl
@[simp] theorem State.resetWith_refusal : (State.resetWith c).refusal = none := rfl

end ResetFields

/-- The default `FONT` (R33): the glyphs of 0 to 7, then those of 8 to F. -/
theorem defaultConfig_font_toList : defaultConfig.font.toList = fontLow ++ fontHigh := rfl

/-- Settles O42: eight parameters by definition, and the font as its two halves joined, glyph by
glyph. -/
theorem parameterDefaults : Obligations.ParameterDefaults := by
  refine ⟨rfl, rfl, rfl, rfl, rfl, rfl, rfl, rfl, ?_⟩
  rw [defaultConfig_font_toList]
  simp only [fontLow, fontHigh, List.append_assoc]

/-- Settles O43: the model's own fields by the reset state's field lemmas, and `State.reset` by
the definition of `resetConfig`. -/
theorem resetOfTheModelsOwnFields : Obligations.ResetOfTheModelsOwnFields := by
  refine ⟨fun c => ⟨?_, ?_, ?_, ?_, ?_⟩, rfl⟩
  · exact State.resetWith_config c
  · exact State.resetWith_boot c
  · exact State.resetWith_host c
  · exact State.resetWith_result c
  · exact State.resetWith_refusal c

end Sys2Proof.Machine
end

section
/-! PROOFS. What a step changes of the state of spec/10_state.md: one lemma that says which of the
two writers, an instruction or an image load, a step can run, and the rules of the state derived
from it. -/

namespace Sys2Proof.Machine

/-! ### The writers of a step -/

/-- An image load reads nothing of the state but its parameters and its memory (R312). -/
theorem State.setBytes_mem_congr {s t : State} (hc : t.config = s.config) (hm : t.mem = s.mem)
    (a : Nat) (bs : List Byte) : (t.setBytes a bs).mem = (s.setBytes a bs).mem := by
  induction bs generalizing s t a with
  | nil => exact hm
  | cons b bs ih => exact ih (s := s.setByte a b) (t := t.setByte a b) hc (by simp [hc, hm]) (a + 1)

theorem State.setBytes_config (s : State) (a : Nat) (bs : List Byte) :
    (s.setBytes a bs).config = s.config := by
  rw [State.setBytes_eq]

theorem State.putBytes_config (s : State) (a : Nat) (bs : List Byte) :
    (s.putBytes a bs).config = s.config := by
  rw [State.putBytes_eq]

/-- A step that has a next state ran an instruction, or it wrote nothing but the timers, the
model's own fields and, if it was an image load, memory. -/
theorem step_writers {s t : State} (h : step s = .next t) :
    (∃ u ins, RunsInstr s u ins ∧ exec ins u = .next t) ∨
    (t = { s with mem := t.mem, keys := t.keys, rnd := t.rnd, boot := t.boot, host := t.host,
                  draws := t.draws, dt := t.dt, st := t.st, result := t.result } ∧
      (t.mem = s.mem ∨
        ∃ bytes, bytes.length ≤ maxImage ∧ t.mem = (s.setBytes 0x200 bytes).mem)) := by
  rcases step_cases h with hrun | ⟨c, v, e, ht, -, rfl⟩ | ⟨rest, -, rfl⟩ |
    ⟨bytes, rest, -, hload⟩ | ⟨rest, -, rfl⟩
  · exact .inl hrun
  · rw [(beginCall_kept ht).1]
    exact .inr ⟨rfl, .inl rfl⟩
  · exact .inr ⟨rfl, .inl rfl⟩
  · obtain ⟨-, hlen, rfl⟩ := loadImage_eq_next.1 hload
    have hmem := State.setBytes_mem_congr (s := s) (t := { s with host := rest })
      rfl rfl 0x200 bytes
    refine .inr ⟨?_, .inr ⟨bytes, hlen, hmem⟩⟩
    rw [State.setBytes_eq]
    rfl
  · exact .inr ⟨rfl, .inl rfl⟩

section RunsInstr

variable {s u : State} {ins : Instr} (h : RunsInstr s u ins)
include h

theorem RunsInstr.config : u.config = s.config := by rw [h.kept.1]
theorem RunsInstr.mem : u.mem = s.mem := by rw [h.kept.1]
theorem RunsInstr.sp : u.sp = s.sp := by rw [h.kept.1]
theorem RunsInstr.stack : u.stack = s.stack := by rw [h.kept.1]
theorem RunsInstr.fb : u.fb = s.fb := by rw [h.kept.1]

/-- An instruction is fetched from two bytes inside the address space (R101). -/
theorem RunsInstr.pc_lt : u.pc.toNat + 1 ≤ 0xFFF := by
  obtain ⟨-, -, -, hpc⟩ := h.kept
  exact hpc

theorem RunsInstr.byteAt (a : Nat) : u.byteAt a = s.byteAt a :=
  State.byteAt_congr h.config h.mem a

theorem RunsInstr.slot (k : Fin 16) : u.slot k = s.slot k := by
  rw [State.slot, State.slot, h.stack]

end RunsInstr

/-! ### The parameters (R39) -/

/-- No instruction and no other call writes a parameter. -/
theorem step_config {s t : State} (h : step s = .next t) : t.config = s.config := by
  rcases step_writers h with ⟨u, ins, hrun, hexec⟩ | ⟨ht, -⟩
  · exact (exec_env hexec).1.trans hrun.config
  · rw [ht]

/-- Settles O51, by `step_config`: from an instruction's frame, and from what any other call
writes. -/
theorem stepKeepsTheParameters : Obligations.StepKeepsTheParameters := fun _ _ h => step_config h

/-! ### The invariant -/

/-- The canonical form depends on the font and the cells alone. -/
theorem State.memWf_congr {s t : State} (hc : t.config = s.config) (hm : t.mem = s.mem) :
    t.memWf = s.memWf := by
  simp only [State.memWf, hc, hm]

/-- Every step keeps memory canonical (spec/20_memory.md R50): the stores of an instruction and an
image of at most 3584 bytes stay inside the address space. -/
theorem step_memWf {s t : State} (h : step s = .next t) (hs : s.memWf = true) :
    t.memWf = true := by
  have hc := step_config h
  rcases step_writers h with ⟨u, ins, hrun, hexec⟩ | ⟨-, hm | ⟨bytes, hlen, hm⟩⟩
  · exact exec_memWf hexec ((State.memWf_congr hrun.config hrun.mem).trans hs)
  · exact (State.memWf_congr hc hm).trans hs
  · have hload : (s.setBytes 0x200 bytes).memWf = true :=
      State.setBytes_memWf hs (Nat.add_le_add_left hlen 0x200)
    exact (State.memWf_congr (hc.trans (s.setBytes_config ..).symm) hm).trans hload

theorem toNat_addrWord (nnn : Addr) : (addrWord nnn).toNat = nnn.toNat :=
  BitVec.toNat_setWidth_of_le (by decide)

theorem toNat_byteWord (b : Byte) : (byteWord b).toNat = b.toNat :=
  BitVec.toNat_setWidth_of_le (by decide)

/-- An instruction fetched inside the address space, with pushable addresses in the slots, leaves
the PC at most 0x10FE, the largest sum of Bnnn (R25, R252). -/
theorem exec_pc_le {ins : Instr} {s t : State} (h : exec ins s = .next t)
    (hpc : s.pc.toNat + 1 ≤ 0xFFF) (hslot : ∀ k, (s.slot k).toNat ≤ 0x1000) :
    t.pc.toNat ≤ 0x10FE := by
  rcases exec_pc h with ht | ht | ht | ⟨k, ht⟩ | ⟨nnn, ht⟩ | ⟨nnn, ht⟩ <;> rw [ht]
  · bv_omega
  · bv_omega
  · omega
  · have := hslot k
    omega
  · rw [toNat_addrWord]
    omega
  · have hn := toNat_addrWord nnn
    have hb := toNat_byteWord (s.reg 0)
    rw [BitVec.toNat_add]
    omega

/-- `STACK[j]` after slot `k` is written. -/
theorem State.slot_of_stack_set {s t : State} {k : Nat} {hk : k < 16} {w : Word}
    (h : t.stack = s.stack.set k w hk) (j : Fin 16) :
    t.slot j = if k = j.val then w else s.slot j := by
  simp only [State.slot, h, Fin.getElem_fin, Vector.getElem_set]

/-- A CALL fetched inside the address space pushes at most 0x1000 (R110), and nothing else writes
a slot. -/
theorem exec_slot_le {ins : Instr} {s t : State} (h : exec ins s = .next t)
    (hpc : s.pc.toNat + 1 ≤ 0xFFF) (hslot : ∀ k, (s.slot k).toNat ≤ 0x1000) (k : Fin 16) :
    (t.slot k).toNat ≤ 0x1000 := by
  have kept (hst : t.stack = s.stack) : (t.slot k).toNat ≤ 0x1000 := by
    rw [State.slot, hst]
    exact hslot k
  rcases exec_frames h with ⟨-, hst⟩ | ⟨-, hst⟩ | ⟨nnn, -, hsp, hst⟩
  · exact kept hst
  · exact kept hst
  · rw [State.slot_of_stack_set hst]
    split
    · bv_omega
    · exact hslot k

/-- Settles O49: memory by `step_memWf`; the PC and the slots by what an instruction leaves in them,
as no other step writes either. -/
theorem stepKeepsTheInvariant : Obligations.StepKeepsTheInvariant := by
  rintro s t ⟨hmem, hpc, hslot⟩ h
  refine ⟨step_memWf h hmem, ?_⟩
  rcases step_writers h with ⟨u, ins, hrun, hexec⟩ | ⟨ht, -⟩
  · have hslot' : ∀ k, (u.slot k).toNat ≤ 0x1000 := fun k => (hrun.slot k) ▸ hslot k
    exact ⟨exec_pc_le hexec hrun.pc_lt hslot', exec_slot_le hexec hrun.pc_lt hslot'⟩
  · rw [ht]
    exact ⟨hpc, hslot⟩

/-! ### The font region (R33, spec/20_memory.md R54) -/

/-- No store changes a byte of the font region, unless `FONT_WRITE = write` (R54). -/
theorem State.byteAt_putBytes_font {s : State} (hf : s.config.fontWrite ≠ .write) (a : Nat)
    (bs : List Byte) {c : Nat} (hc : c ≤ 0x04F) : (s.putBytes a bs).byteAt c = s.byteAt c := by
  have hs : s.storable c = false := by
    rw [State.storable, decide_eq_false (not_lt.2 hc), beq_false_of_ne hf, Bool.or_self]
  rw [State.byteAt_putBytes, if_neg (by simp [hs])]

/-- An image load starts past the font region (R312). -/
theorem State.byteAt_setBytes_below (s : State) {a c : Nat} (bs : List Byte) (h : c < a) :
    (s.setBytes a bs).byteAt c = s.byteAt c := by
  rw [State.byteAt_setBytes, if_neg (by omega)]

/-- No instruction changes a byte of the font region, unless `FONT_WRITE = write`. -/
theorem exec_byteAt_font {ins : Instr} {s t : State} (h : exec ins s = .next t)
    (hf : s.config.fontWrite ≠ .write) {a : Nat} (ha : a ≤ 0x04F) : t.byteAt a = s.byteAt a := by
  have hc := (exec_env h).1
  have stored (b : Nat) (bs : List Byte) (hm : t.mem = (s.putBytes b bs).mem) :
      t.byteAt a = s.byteAt a := by
    rw [State.byteAt_congr (hc.trans (s.putBytes_config ..).symm) hm,
      State.byteAt_putBytes_font hf b bs ha]
  rcases exec_mem h with hm | ⟨x, -, -, -, hm⟩ | ⟨x, -, -, -, hm⟩
  · exact State.byteAt_congr hc hm a
  · exact stored _ _ hm
  · exact stored _ _ hm

/-- Settles O52: no store of an instruction reaches the font region, and an image load starts past
it. -/
theorem fontRegionIsImmutable : Obligations.FontRegionIsImmutable := by
  intro s t hf h a ha
  have hc := step_config h
  rcases step_writers h with ⟨u, ins, hrun, hexec⟩ | ⟨-, hm | ⟨bytes, -, hm⟩⟩
  · exact (exec_byteAt_font hexec (hrun.config ▸ hf) ha).trans (hrun.byteAt a)
  · exact State.byteAt_congr hc hm a
  · rw [State.byteAt_congr (hc.trans (s.setBytes_config ..).symm) hm,
      State.byteAt_setBytes_below s bytes (by omega)]

/-! ### The framebuffer (R30) -/

/-- No instruction but 00E0 and Dxyn writes the framebuffer. -/
theorem exec_fb {ins : Instr} {s t : State} (h : exec ins s = .next t) :
    t.fb = s.fb ∨ ins = .cls ∨ ∃ x y n, ins = .drw x y n := by
  cases ins with
  | cls => exact .inr (.inl rfl)
  | drw x y n => exact .inr (.inr ⟨x, y, n, rfl⟩)
  | ret => obtain ⟨_, rfl⟩ := exec_ret_eq_next.1 h; exact .inl rfl
  | call nnn => obtain ⟨_, rfl⟩ := exec_call_eq_next.1 h; exact .inl rfl
  | ldB x => obtain ⟨-, -, rfl⟩ := exec_ldB_eq_next.1 h; rw [State.putBytes_eq]; exact .inl rfl
  | dump x =>
    obtain ⟨-, -, rfl⟩ := exec_dump_eq_next.1 h
    rw [State.bumpI_eq, State.putBytes_eq]
    exact .inl rfl
  | load x =>
    obtain ⟨-, rfl⟩ := exec_load_eq_next.1 h
    rw [State.bumpI_eq, State.setRegs_eq]
    exact .inl rfl
  | skp x => obtain ⟨-, rfl⟩ := exec_skp_eq_next.1 h; exact .inl rfl
  | sknp x => obtain ⟨-, rfl⟩ := exec_sknp_eq_next.1 h; exact .inl rfl
  | sys nnn => obtain ⟨-, rfl⟩ := exec_sys_eq_next.1 h; exact .inl rfl
  | jpV0 nnn => obtain ⟨-, rfl⟩ := exec_jpV0_eq_next.1 h; exact .inl rfl
  | ldVxK x => obtain ⟨-, rfl⟩ := exec_ldVxK_eq_next.1 h; left; cases s.lowestKey <;> rfl
  | sub | subn | shr | shl => cases h; left; rw [(State.flagThenResult_frame ..).1]; rfl
  | _ => cases h; exact .inl rfl

/-- Settles O53: a changed cell means a changed framebuffer, so the step ran an instruction, and
one of the two that write it. -/
theorem onlyClsAndDrawWriteTheScreen : Obligations.OnlyClsAndDrawWriteTheScreen := by
  intro s t c r h hne
  have hfb : t.fb ≠ s.fb := fun hfb => hne (by rw [hfb])
  rcases step_writers h with ⟨u, ins, hrun, hexec⟩ | ⟨ht, -⟩
  · exact ⟨u, ins, hrun, (exec_fb hexec).resolve_left fun hk => hfb (hk.trans hrun.fb)⟩
  · exact absurd (by rw [ht]) hfb

/-! ### The call stack (R27, R28) -/

/-- Settles O54: by what an instruction does to the call stack, as no other step writes SP or a
slot. -/
theorem onlyCallAndRetTouchTheStack : Obligations.OnlyCallAndRetTouchTheStack := by
  intro s t h
  rcases step_writers h with ⟨u, ins, hrun, hexec⟩ | ⟨ht, -⟩
  · have slots (hst : t.stack = u.stack) (k : Fin 16) : t.slot k = s.slot k := by
      rw [State.slot, State.slot, hst, hrun.stack]
    rcases exec_frames hexec with ⟨hsp, hst⟩ | ⟨rfl, hst⟩ | ⟨nnn, rfl, -⟩
    · exact ⟨fun hne => absurd (hsp.trans hrun.sp) hne, fun k hne => absurd (slots hst k) hne⟩
    · exact ⟨fun _ => ⟨u, _, hrun, .inl rfl⟩, fun k hne => absurd (slots hst k) hne⟩
    · exact ⟨fun _ => ⟨u, _, hrun, .inr ⟨nnn, rfl⟩⟩, fun _ _ => ⟨u, nnn, hrun⟩⟩
  · have hsp : t.sp = s.sp := by rw [ht]
    have hst : t.stack = s.stack := by rw [ht]
    exact ⟨fun hne => absurd hsp hne, fun k hne => absurd (by rw [State.slot, State.slot, hst]) hne⟩

end Sys2Proof.Machine
end

section
/-! PROOFS. What one instruction does to registers and the call stack (spec/10_state.md R21, R22,
R27, R34). -/

namespace Sys2Proof.Machine

/-! ### 00EE (R27, R108) -/

/-- A pop with no active frame raises StackUnderflow (R273). -/
theorem pop_of_no_frame {s : State} (h : s.sp.val = 0) : pop s = .fault .stackUnderflow := by
  rw [pop, dif_neg (by omega), raise]

/-- Settles O2: with a frame active by the pop's next state, and with none by its fault. -/
theorem retPopsTheReturnAddress : Obligations.RetPopsTheReturnAddress := by
  refine ⟨fun s k hk => ?_, fun s hs => ?_⟩
  · have hpos : 0 < s.sp.val := by omega
    refine ⟨_, exec_ret_eq_next.2 ⟨hpos, rfl⟩, ?_, ?_, rfl, fun _ _ => rfl, fun _ => rfl⟩
    · simp [State.slot, hk]
    · simp [hk]
  · rw [exec, execRet, pop_of_no_frame hs, andThen_fault]

/-! ### Registers (R21, R22, R34) -/

/-- No register changes where the register file does not. -/
theorem RegsKept.of_v {s t : State} (h : t.v = s.v) (written : List Nibble) :
    RegsKept written s t := fun r _ => State.reg_congr h r

/-- A write of one register, whatever becomes of the fields other than the register file. -/
theorem RegsKept.of_setReg {s t : State} {x : Nibble} {b : Byte} (h : t.v = (s.setReg x b).v) :
    RegsKept [x] s t := by
  intro r hr
  rw [State.reg_congr h, State.reg_setReg_ne b (by simpa using hr)]

/-- The two writes of an instruction that answers a result and a flag. -/
theorem RegsKept.of_flagThenResult {s t : State} {x y : Nibble} {result flag : Byte → Byte → Byte}
    (h : t.v = (s.flagThenResult x y result flag).v) : RegsKept [x, vF] s t := by
  intro r hr
  obtain ⟨hx, hf⟩ : r ≠ x ∧ r ≠ vF := by simpa using hr
  rw [State.reg_congr h, (State.flagThenResult_frame ..).2 r hx hf]

theorem RegsKept.of_resultThenFlag {s t : State} {x y : Nibble} {result flag : Byte → Byte → Byte}
    (h : t.v = (s.resultThenFlag x y result flag).v) : RegsKept [x, vF] s t := by
  intro r hr
  obtain ⟨hx, hf⟩ : r ≠ x ∧ r ≠ vF := by simpa using hr
  obtain ⟨-, -, -, hkept⟩ := State.resultThenFlag_spec s x y result flag
  rw [State.reg_congr h, hkept r hx hf]

/-- V0 to Vx are the registers numbered at most `x`. -/
theorem mem_regsWritten_load {x r : Nibble} : r ∈ regsWritten (.load x) ↔ r.toNat ≤ x.toNat := by
  simp only [regsWritten, List.mem_map, List.mem_range]
  constructor
  · rintro ⟨k, hk, rfl⟩
    rw [BitVec.toNat_ofNat]
    exact (Nat.mod_le ..).trans (by omega)
  · intro h
    exact ⟨r.toNat, by omega, by simp⟩

/-- A load of as many bytes as there are registers from V0 to Vx. -/
theorem RegsKept.of_setRegs {s t : State} {x : Nibble} {bs : List Byte}
    (hlen : bs.length = x.toNat + 1) (h : t.v = (s.setRegs 0 bs).v) :
    RegsKept (regsWritten (.load x)) s t := by
  intro r hr
  have hx : x.toNat < 16 := x.isLt
  have hout : bs.length ≤ r.toNat := by
    rw [mem_regsWritten_load] at hr
    omega
  rw [State.reg_congr h, State.reg_setRegs _ _ _ _ (by omega), Nat.sub_zero,
    List.getElem?_eq_none hout]
  simp

/-- Settles O58, instruction by instruction: the ones that keep the register file, the ones that
write one register, the two flag forms, and the load of V0 to Vx. -/
theorem onlyDestinationsAndFlagsAreWritten : Obligations.OnlyDestinationsAndFlagsAreWritten := by
  intro ins s t h
  cases ins with
  | ret => obtain ⟨_, rfl⟩ := exec_ret_eq_next.1 h; exact .of_v rfl _
  | call nnn => obtain ⟨_, rfl⟩ := exec_call_eq_next.1 h; exact .of_v rfl _
  | skp x => obtain ⟨-, rfl⟩ := exec_skp_eq_next.1 h; exact .of_v rfl _
  | sknp x => obtain ⟨-, rfl⟩ := exec_sknp_eq_next.1 h; exact .of_v rfl _
  | sys nnn => obtain ⟨-, rfl⟩ := exec_sys_eq_next.1 h; exact .of_v rfl _
  | jpV0 nnn => obtain ⟨-, rfl⟩ := exec_jpV0_eq_next.1 h; exact .of_v rfl _
  | ldB x =>
    obtain ⟨-, -, rfl⟩ := exec_ldB_eq_next.1 h
    rw [State.putBytes_eq]
    exact .of_v rfl _
  | dump x =>
    obtain ⟨-, -, rfl⟩ := exec_dump_eq_next.1 h
    rw [State.bumpI_eq, State.putBytes_eq]
    exact .of_v rfl _
  | drw x y n => obtain ⟨-, rfl⟩ := exec_drw_eq_next.1 h; exact .of_setReg rfl
  | ldVxK x =>
    obtain ⟨-, rfl⟩ := exec_ldVxK_eq_next.1 h
    cases s.lowestKey
    · exact .of_v rfl _
    · exact .of_setReg rfl
  | load x =>
    obtain ⟨-, rfl⟩ := exec_load_eq_next.1 h
    rw [State.bumpI_eq]
    exact .of_setRegs (by simp) rfl
  | addReg => cases h; exact .of_resultThenFlag rfl
  | sub | subn | shr | shl => cases h; exact .of_flagThenResult rfl
  | ldImm | addImm | ldReg | orReg | andReg | xorReg | rnd | ldVxDt => cases h; exact .of_setReg rfl
  | cls | jp | seImm | sneImm | seReg | sneReg | ldI | addI | ldF | ldDtVx | ldStVx =>
    cases h; exact .of_v rfl _

end Sys2Proof.Machine
end

section
/-! PROOFS. The inputs of a cycle: an instruction that does not read the keypad vector, or the
random byte, does the same whatever they are (spec/10_state.md R31, R32). -/

namespace Sys2Proof.Machine

/-- The inputs a cycle runs with are replaced. -/
def State.setInputs (s : State) (k : Keys) (r : Byte) : State := { s with keys := k, rnd := r }

theorem andThen_assoc {α β γ : Type} (o : Result α) (f : α → Result β) (g : β → Result γ) :
    andThen (andThen o f) g = andThen o fun a => andThen (f a) g := by
  cases o with
  | next a => rfl
  | fault e => rfl
  | refused r => rfl

theorem byOption_andThen (p : OptOutcome) (w : Word) (m : Result State)
    (g : State → Result State) : andThen (byOption p w m) g = byOption p w (andThen m g) := by
  cases p with
  | refused => rfl
  | unsupported => rfl
  | standard => rfl

section SetInputs

variable (s : State) (k : Keys) (r : Byte)

/-! What the inputs leave unchanged, and which updates do not read them. -/

@[simp] theorem State.setInputs_config : (s.setInputs k r).config = s.config := rfl
@[simp] theorem State.setInputs_i : (s.setInputs k r).i = s.i := rfl
@[simp] theorem State.setInputs_pc : (s.setInputs k r).pc = s.pc := rfl
@[simp] theorem State.setInputs_fb : (s.setInputs k r).fb = s.fb := rfl
@[simp] theorem State.reg_setInputs (x : Nibble) : (s.setInputs k r).reg x = s.reg x := rfl
@[simp] theorem State.regsTo_setInputs (x : Nibble) :
    (s.setInputs k r).regsTo x = s.regsTo x := rfl
@[simp] theorem State.storable_setInputs (a : Nat) :
    (s.setInputs k r).storable a = s.storable a := rfl
@[simp] theorem loadBlock_setInputs (a n : Nat) :
    loadBlock (s.setInputs k r) a n = loadBlock s a n := rfl
@[simp] theorem keyIndex_setInputs (a : Byte) :
    keyIndex (s.setInputs k r) a = keyIndex s a := rfl
@[simp] theorem State.keyDown_setInputs_keys (j : Nibble) :
    (s.setInputs s.keys r).keyDown j = s.keyDown j := rfl
@[simp] theorem State.lowestKey_setInputs_keys :
    (s.setInputs s.keys r).lowestKey = s.lowestKey := rfl
@[simp] theorem State.setPc_setInputs (w : Word) :
    (s.setInputs k r).setPc w = (s.setPc w).setInputs k r := rfl
@[simp] theorem State.advance_setInputs :
    (s.setInputs k r).advance = s.advance.setInputs k r := rfl
@[simp] theorem State.skipIf_setInputs (c : Bool) :
    (s.setInputs k r).skipIf c = (s.skipIf c).setInputs k r := rfl
@[simp] theorem State.setReg_setInputs (x : Nibble) (b : Byte) :
    (s.setInputs k r).setReg x b = (s.setReg x b).setInputs k r := rfl
@[simp] theorem State.setFb_setInputs (f : Framebuffer) :
    (s.setInputs k r).setFb f = (s.setFb f).setInputs k r := rfl

@[simp] theorem push_setInputs (w : Word) :
    push (s.setInputs k r) w = andThen (push s w) fun t => .next (t.setInputs k r) := by
  by_cases h : s.sp.val < 16
  · rw [push, push, dif_pos h, dif_pos (c := (s.setInputs k r).sp.val < 16) h]; rfl
  · rw [push, push, dif_neg h, dif_neg (c := (s.setInputs k r).sp.val < 16) h]; rfl

@[simp] theorem pop_setInputs :
    pop (s.setInputs k r) = andThen (pop s) fun p => .next (p.1, p.2.setInputs k r) := by
  by_cases h : 0 < s.sp.val
  · rw [pop, pop, dif_pos h, dif_pos (c := 0 < (s.setInputs k r).sp.val) h]; rfl
  · rw [pop, pop, dif_neg h, dif_neg (c := 0 < (s.setInputs k r).sp.val) h]; rfl

@[simp] theorem State.putByte_setInputs (a : Nat) (b : Byte) :
    (s.setInputs k r).putByte a b = (s.putByte a b).setInputs k r := by
  cases h : s.storable a with
  | true => simp only [State.putByte, State.storable_setInputs, h]; rfl
  | false => simp [State.putByte, h]

@[simp] theorem State.putBytes_setInputs (a : Nat) (bs : List Byte) :
    (s.setInputs k r).putBytes a bs = (s.putBytes a bs).setInputs k r := by
  induction bs generalizing s a with
  | nil => rfl
  | cons b bs ih => rw [State.putBytes, State.putByte_setInputs, ih]; rfl

@[simp] theorem storeBlock_setInputs (a : Nat) (bs : List Byte) :
    storeBlock (s.setInputs k r) a bs =
      andThen (storeBlock s a bs) fun t => .next (t.setInputs k r) := by
  simp only [storeBlock, State.putBytes_setInputs, State.setInputs_config]
  split
  · rfl
  · split <;> rfl

@[simp] theorem State.setRegs_setInputs (j : Nat) (bs : List Byte) :
    (s.setInputs k r).setRegs j bs = (s.setRegs j bs).setInputs k r := by
  induction bs generalizing s j with
  | nil => rfl
  | cons b bs ih => exact ih (s.setReg (BitVec.ofNat 4 j) b) (j + 1)

@[simp] theorem State.bumpI_setInputs (x : Nibble) :
    (s.setInputs k r).bumpI x = (s.bumpI x).setInputs k r := by
  simp only [State.bumpI, State.setInputs_config]
  split <;> rfl

@[simp] theorem State.flagThenResult_setInputs (x y : Nibble) (result flag : Byte → Byte → Byte) :
    (s.setInputs k r).flagThenResult x y result flag =
      (s.flagThenResult x y result flag).setInputs k r := by
  simp only [State.flagThenResult, State.setInputs_config]
  split <;> rfl

/-- An instruction does with other inputs what it does with its own, unless it reads one that
differs: the keypad vector by Ex9E, ExA1 and Fx0A, the random byte by Cxkk. -/
theorem exec_setInputs (ins : Instr)
    (hk : k = s.keys ∨ ∀ x, ins ≠ .skp x ∧ ins ≠ .sknp x ∧ ins ≠ .ldVxK x)
    (hr : r = s.rnd ∨ ∀ x kk, ins ≠ .rnd x kk) :
    exec ins (s.setInputs k r) = andThen (exec ins s) fun t => .next (t.setInputs k r) := by
  cases ins with
  | skp x =>
    obtain rfl : k = s.keys := hk.resolve_right fun h => (h x).1 rfl
    simp [exec, execSkp, andThen_assoc]
  | sknp x =>
    obtain rfl : k = s.keys := hk.resolve_right fun h => (h x).2.1 rfl
    simp [exec, execSknp, andThen_assoc]
  | ldVxK x =>
    obtain rfl : k = s.keys := hk.resolve_right fun h => (h x).2.2 rfl
    simp only [exec, execLdVxK, byOption_andThen, State.lowestKey_setInputs_keys]
    cases s.lowestKey <;> rfl
  | rnd x kk =>
    obtain rfl : r = s.rnd := hr.resolve_right fun h => h x kk rfl
    rfl
  | ret => simp [exec, execRet, andThen_assoc]
  | call nnn => simp [exec, execCall, andThen_assoc]
  | ldB x => simp [exec, execLdB, andThen_assoc]
  | dump x => simp [exec, execDump, andThen_assoc]
  | load x => simp [exec, execLoad, andThen_assoc]
  | drw x y n => simp [exec, execDrw, andThen_assoc]
  | sys nnn => simp [exec, execSys, byOption_andThen]
  | jpV0 nnn => simp [exec, execJpV0, byOption_andThen]
  | sub x y => simp [exec, execSub]
  | subn x y => simp [exec, execSubn]
  | shr x y => simp [exec, execShr]
  | shl x y => simp [exec, execShl]
  | _ => rfl

end SetInputs

/-- Settles O60, by `exec_setInputs` with the random byte as it was. -/
theorem onlyKeypadInstructionsReadTheKeys : Obligations.OnlyKeypadInstructionsReadTheKeys := by
  intro ins s keys hins
  have h := exec_setInputs s keys s.rnd ins (.inr hins) (.inl rfl)
  cases hexec : exec ins s with
  | next t =>
    obtain ⟨-, -, hrnd, -⟩ := exec_env hexec
    rw [hexec] at h
    exact h.trans (by rw [andThen_next, State.setInputs, ← hrnd]; rfl)
  | fault e => rw [hexec] at h; exact h
  | refused q => rw [hexec] at h; exact h

end Sys2Proof.Machine
end

section
/-! PROOFS. The state after `Init()` (spec/10_state.md R37): what each accessor reads in it, and
that it satisfies the invariant. -/

namespace Sys2Proof.Machine

/-- An address of the font region reads as the font (R33). -/
theorem initialByte_font (font : Font) (a : Fin 80) : initialByte font a.val = font[a] :=
  dif_pos a.isLt

/-- An address past the font region reads as 0. -/
theorem initialByte_past_font (font : Font) {a : Nat} (h : 0x050 ≤ a) : initialByte font a = 0 :=
  dif_neg (Nat.not_lt.2 h)

section ResetAccessors

variable (c : Config)

@[simp] theorem State.reg_resetWith (x : Nibble) : (State.resetWith c).reg x = 0 :=
  Vector.getElem_replicate ..

@[simp] theorem State.slot_resetWith (k : Fin 16) : (State.resetWith c).slot k = 0 :=
  Vector.getElem_replicate ..

@[simp] theorem State.resetWith_fb : (State.resetWith c).fb = blank := rfl

/-- No cell is listed after reset. -/
@[simp] theorem State.byteAt_resetWith (a : Nat) :
    (State.resetWith c).byteAt a = initialByte c.font a := rfl

end ResetAccessors

/-- Settles O41: the scalar fields by definition, the others by what their accessors read. -/
theorem resetLeavesTheInitialState : Obligations.ResetLeavesTheInitialState := by
  refine fun c =>
    ⟨State.reg_resetWith c, rfl, rfl, rfl, State.slot_resetWith c, rfl, rfl,
      fun col row => ?_, ?_, ?_⟩
  · rw [State.resetWith_fb, pixel_blank]
  · exact fun a => initialByte_font c.font a
  · exact fun a ha => initialByte_past_font c.font ha

/-- The invariant holds after `Init()`, under any parameters. -/
theorem State.resetWith_inv (c : Config) : (State.resetWith c).Inv := by
  refine ⟨(memWf_iff c.font []).2 ⟨.nil, nofun⟩, ?_, fun k => ?_⟩
  · exact (by decide : (0x200 : Word).toNat ≤ 0x10FE)
  · simp

/-- Settles O50, as the case of the parameters of `State.reset`. -/
theorem resetSatisfiesTheInvariant : Obligations.ResetSatisfiesTheInvariant :=
  State.resetWith_inv resetConfig

end Sys2Proof.Machine
end

section
/-! PROOFS. What a store leaves in memory and which bytes a step can change (spec/20_memory.md R54,
R58, R60 and R65). -/

namespace Sys2Proof.Machine

/-! ### Stores and loads at one address -/

/-- The addresses a store changes (R54). -/
theorem State.storable_iff {s : State} {a : Nat} :
    s.storable a = true ↔ 0x04F < a ∨ s.config.fontWrite = .write := by
  simp only [State.storable, Bool.or_eq_true, decide_eq_true_eq, beq_iff_eq]

/-- An entry that differs from the default is inside the list. -/
theorem lt_length_of_getElem?_getD_ne {bs : List Byte} {k : Nat} {d : Byte}
    (h : bs[k]?.getD d ≠ d) : k < bs.length := by
  by_contra hk
  rw [List.getElem?_eq_none (not_lt.1 hk), Option.getD_none] at h
  exact h rfl

/-- A byte that a block store changes is one of the block's. -/
theorem State.mem_block_of_byteAt_putBytes_ne {s : State} {a c : Nat} {bs : List Byte}
    (h : (s.putBytes a bs).byteAt c ≠ s.byteAt c) : a ≤ c ∧ c < a + bs.length := by
  rw [State.byteAt_putBytes] at h
  split at h
  · have hlt := lt_length_of_getElem?_getD_ne h
    omega
  · exact absurd rfl h

/-- A byte that an image load changes is one of the image's. -/
theorem State.mem_block_of_byteAt_setBytes_ne {s : State} {a c : Nat} {bs : List Byte}
    (h : (s.setBytes a bs).byteAt c ≠ s.byteAt c) : a ≤ c ∧ c < a + bs.length := by
  rw [State.byteAt_setBytes] at h
  split at h
  · have hlt := lt_length_of_getElem?_getD_ne h
    omega
  · exact absurd rfl h

/-! ### A stored byte is fetched (R65) -/

/-- After Fx55, the byte at I + k is Vk wherever the store reaches (R184). -/
theorem exec_dump_byteAt {x k : Nibble} {s t : State} (h : exec (.dump x) s = .next t)
    (hk : k.toNat ≤ x.toNat) (hs : 0x04F < s.i.toNat + k.toNat ∨ s.config.fontWrite = .write) :
    t.byteAt (s.i.toNat + k.toNat) = s.reg k := by
  obtain ⟨-, -, rfl⟩ := exec_dump_eq_next.1 h
  have hlt : k.toNat < (s.regsTo x).length := by
    rw [State.length_regsTo]
    omega
  calc (((s.putBytes s.i.toNat (s.regsTo x)).bumpI x).advance).byteAt (s.i.toNat + k.toNat)
      = (s.putBytes s.i.toNat (s.regsTo x)).byteAt (s.i.toNat + k.toNat) := by
        rw [State.bumpI_eq]
        rfl
    _ = (s.regsTo x)[k.toNat] := by
        rw [State.byteAt_putBytes, if_pos ⟨by omega, State.storable_iff.2 hs⟩,
          Nat.add_sub_cancel_left, List.getElem?_eq_getElem hlt, Option.getD_some]
    _ = s.reg k := by rw [State.getElem_regsTo, BitVec.ofNat_toNat, BitVec.setWidth_eq]

/-- Settles O32: the fetch reads the two bytes at I + k and I + k + 1, both inside the block that
the register dump stored. -/
theorem storeIsSeenByTheNextFetch : Obligations.StoreIsSeenByTheNextFetch := by
  intro x k s t h hk hpc hs
  obtain ⟨hend, -, -⟩ := exec_dump_eq_next.1 h
  have hk1 : (k + 1).toNat = k.toNat + 1 := by bv_omega
  have hlow := exec_dump_byteAt h (k := k) (by omega) hs
  have hhigh := exec_dump_byteAt h (k := k + 1) (by omega) (hs.imp_left fun _ => by omega)
  rw [hk1, ← Nat.add_assoc] at hhigh
  rw [fetchWord_eq_next, hpc, hlow, hhigh]
  have hlast : s.i.toNat + k.toNat + 1 ≤ 0xFFF := by
    unfold memSize at hend
    omega
  exact ⟨hlast, rfl⟩

/-! ### Who writes memory (R58, R312) -/

/-- A byte of memory that an instruction changes is one that Fx33 or Fx55 stores. -/
theorem exec_byteAt_ne {ins : Instr} {s t : State} (h : exec ins s = .next t) {a : Nat}
    (hne : t.byteAt a ≠ s.byteAt a) :
    (∃ x, ins = .ldB x ∧ s.i.toNat ≤ a ∧ a ≤ s.i.toNat + 2) ∨
      ∃ x, ins = .dump x ∧ s.i.toNat ≤ a ∧ a ≤ s.i.toNat + x.toNat := by
  have hc := (exec_env h).1
  have stored {b : Nat} {bs : List Byte} (hm : t.mem = (s.putBytes b bs).mem) :
      b ≤ a ∧ a < b + bs.length := by
    rw [State.byteAt_congr (hc.trans (s.putBytes_config ..).symm) hm] at hne
    exact State.mem_block_of_byteAt_putBytes_ne hne
  rcases exec_mem h with hm | ⟨x, hins, -, -, hm⟩ | ⟨x, hins, -, -, hm⟩
  · exact absurd (State.byteAt_congr hc hm a) hne
  · obtain ⟨hlo, hhi⟩ := stored hm
    exact .inl ⟨x, hins, hlo, Nat.le_of_lt_succ hhi⟩
  · obtain ⟨hlo, hhi⟩ := stored hm
    rw [State.length_regsTo] at hhi
    exact .inr ⟨x, hins, hlo, Nat.le_of_lt_succ hhi⟩

/-- A completed image load changes no byte but the image's (R312). -/
theorem loadImage_byteAt_ne {s t : State} {bytes : List Byte} (h : loadImage s bytes = .next t)
    {a : Nat} (hne : t.byteAt a ≠ s.byteAt a) : 0x200 ≤ a ∧ a < 0x200 + bytes.length := by
  obtain ⟨-, -, rfl⟩ := loadImage_eq_next.1 h
  exact State.mem_block_of_byteAt_setBytes_ne hne

/-- An instruction runs with the step's own I. -/
theorem RunsInstr.i {s u : State} {ins : Instr} (h : RunsInstr s u ins) : u.i = s.i := by
  rw [h.kept.1]

/-- Settles O56: an instruction that changes a byte is one of the two stores, a completed image load
changes only its image's bytes, and every other step keeps memory. -/
theorem onlyStoresAndLoadsWriteMemory : Obligations.OnlyStoresAndLoadsWriteMemory := by
  intro s t a h hne
  rcases step_cases h with ⟨u, ins, hrun, hexec⟩ | ⟨c, v, e, ht, -, rfl⟩ | ⟨rest, -, rfl⟩ |
    ⟨bytes, rest, hhost, hload⟩ | ⟨rest, -, rfl⟩
  · rw [← hrun.byteAt a] at hne
    rw [← hrun.i]
    rcases exec_byteAt_ne hexec hne with ⟨x, rfl, hin⟩ | ⟨x, rfl, hin⟩
    · exact .inr (.inl ⟨u, x, hrun, hin⟩)
    · exact .inr (.inr ⟨u, x, hrun, hin⟩)
  · rw [(beginCall_kept ht).1] at hne
    exact absurd rfl hne
  · exact absurd rfl hne
  · exact .inl ⟨bytes, rest, hhost, loadImage_byteAt_ne hload hne⟩
  · exact absurd rfl hne

end Sys2Proof.Machine
end

section
/-! PROOFS. The decoder and the encoder (spec/30_encoding.md R81 to R86): each reads what the other
writes, and the words that decode to nothing are those of R86. -/

namespace Sys2Proof

/-! ### The classes with a second selector (R85) -/

section Classes

variable {w : Word}

theorem decode_class0 (h : opClass w = 0x0) : decode w = .ok (decodeClass0 w) := by
  simp [decode, h]

theorem decode_class5 (h : opClass w = 0x5) :
    decode w =
      if fieldN w = 0 then .ok (.seReg (fieldX w) (fieldY w)) else .error (.undefinedWord w) := by
  simp [decode, h]

theorem decode_class8 (h : opClass w = 0x8) : decode w = decodeClass8 w := by simp [decode, h]

theorem decode_class9 (h : opClass w = 0x9) :
    decode w =
      if fieldN w = 0 then .ok (.sneReg (fieldX w) (fieldY w)) else .error (.undefinedWord w) := by
  simp [decode, h]

theorem decode_classE (h : opClass w = 0xE) : decode w = decodeClassE w := by simp [decode, h]

theorem decode_classF (h : opClass w = 0xF) : decode w = decodeClassF w := by simp [decode, h]

end Classes

/-! ### Decoding what was encoded (R81, R90) -/

/-- `0nnn` is well-formed for any `nnn` but those of 00E0 and 00EE (R84 row 33). -/
theorem wellFormed_sys_iff {nnn : Addr} :
    (Instr.sys nnn).wellFormed = true ↔ nnn ≠ 0x0E0 ∧ nnn ≠ 0x0EE := by
  simp [Instr.wellFormed]

/-- Settles O44, class by class: the encoded word's fields are the operands and the selector. -/
theorem decodeOfEncode : Obligations.DecodeOfEncode := by
  intro ins hwf
  cases ins with
  | cls | ret => decide
  | sys nnn =>
    obtain ⟨hcls, hret⟩ := wellFormed_sys_iff.1 hwf
    rw [encode, decode_class0 (opClass_encAddr ..), decodeClass0, fieldNNN_encAddr, if_neg hcls,
      if_neg hret]
  | jp nnn | call nnn | ldI nnn | jpV0 nnn => simp [encode, decode]
  | seImm x kk | sneImm x kk | ldImm x kk | addImm x kk | rnd x kk => simp [encode, decode]
  | drw x y n => simp [encode, decode]
  | seReg x y => simp [encode, decode_class5]
  | sneReg x y => simp [encode, decode_class9]
  | ldReg x y | orReg x y | andReg x y | xorReg x y | addReg x y | sub x y | shr x y | subn x y
  | shl x y => simp [encode, decode_class8, decodeClass8]
  | skp x | sknp x => simp [encode, decode_classE, decodeClassE]
  | addI x | ldF x | ldB x | dump x | load x | ldVxDt x | ldDtVx x | ldStVx x | ldVxK x =>
    simp [encode, decode_classF, decodeClassF]

/-! ### Encoding what was decoded (R83) -/

/-- What the decoder may answer for `w`: a well-formed instruction that encodes to `w`, or that `w`
is undefined. -/
def ReadsWord (w : Word) : Except Reject Instr → Prop
  | .ok ins => ins.wellFormed = true ∧ encode ins = w
  | .error e => e = .undefinedWord w

section Selected

variable {w : Word} {c n kk : Nat}

/-! A word is its fields put together, with the class and the selector at the values found. -/

theorem encAddr_of_class (hc : (opClass w).toNat = c) :
    encAddr (BitVec.ofNat 4 c) (fieldNNN w) = w := by
  rw [← hc, BitVec.ofNat_toNat, BitVec.setWidth_eq, encAddr_fields]

theorem encRK_of_class (hc : (opClass w).toNat = c) :
    encRK (BitVec.ofNat 4 c) (fieldX w) (fieldKK w) = w := by
  rw [← hc, BitVec.ofNat_toNat, BitVec.setWidth_eq, encRK_fields]

theorem encRRN_of_class (hc : (opClass w).toNat = c) :
    encRRN (BitVec.ofNat 4 c) (fieldX w) (fieldY w) (fieldN w) = w := by
  rw [← hc, BitVec.ofNat_toNat, BitVec.setWidth_eq, encRRN_fields]

theorem encRK_of_selector (hc : (opClass w).toNat = c) (hkk : (fieldKK w).toNat = kk) :
    encRK (BitVec.ofNat 4 c) (fieldX w) (BitVec.ofNat 8 kk) = w := by
  rw [← hkk, BitVec.ofNat_toNat, BitVec.setWidth_eq, encRK_of_class hc]

theorem encRRN_of_selector (hc : (opClass w).toNat = c) (hn : (fieldN w).toNat = n) :
    encRRN (BitVec.ofNat 4 c) (fieldX w) (fieldY w) (BitVec.ofNat 4 n) = w := by
  rw [← hn, BitVec.ofNat_toNat, BitVec.setWidth_eq, encRRN_of_class hc]

theorem decodeClass0_readsWord (hc : (opClass w).toNat = 0x0) :
    ReadsWord w (.ok (decodeClass0 w)) := by
  have hw := encAddr_of_class hc
  unfold decodeClass0
  split
  next hcls =>
    rw [hcls] at hw
    exact ⟨rfl, hw⟩
  next hcls =>
    split
    next hret =>
      rw [hret] at hw
      exact ⟨rfl, hw⟩
    next hret => exact ⟨wellFormed_sys_iff.2 ⟨hcls, hret⟩, hw⟩

theorem decodeClass8_readsWord (hc : (opClass w).toNat = 0x8) : ReadsWord w (decodeClass8 w) := by
  unfold decodeClass8
  split
  case h_10 => rfl
  all_goals next hn => exact ⟨rfl, encRRN_of_selector hc hn⟩

theorem decodeClassE_readsWord (hc : (opClass w).toNat = 0xE) : ReadsWord w (decodeClassE w) := by
  unfold decodeClassE
  split
  case h_3 => rfl
  all_goals next hkk => exact ⟨rfl, encRK_of_selector hc hkk⟩

theorem decodeClassF_readsWord (hc : (opClass w).toNat = 0xF) : ReadsWord w (decodeClassF w) := by
  unfold decodeClassF
  split
  case h_10 => rfl
  all_goals next hkk => exact ⟨rfl, encRK_of_selector hc hkk⟩

end Selected

/-- The decoder's answer is about its own word: in each class, the word is its format with the class
and the selector that were read. -/
theorem decode_readsWord (w : Word) : ReadsWord w (decode w) := by
  unfold decode
  split
  case h_1 hc => exact decodeClass0_readsWord hc
  case h_9 hc => exact decodeClass8_readsWord hc
  case h_15 hc => exact decodeClassE_readsWord hc
  case h_16 =>
    have := (opClass w).isLt
    exact decodeClassF_readsWord (by grind)
  case h_6 hc | h_10 hc =>
    split
    next hn => exact ⟨rfl, encRRN_of_selector hc (congrArg BitVec.toNat hn)⟩
    next => rfl
  case h_14 hc => exact ⟨rfl, encRRN_of_class hc⟩
  case h_4 hc | h_5 hc | h_7 hc | h_8 hc | h_13 hc => exact ⟨rfl, encRK_of_class hc⟩
  case h_2 hc | h_3 hc | h_11 hc | h_12 hc => exact ⟨rfl, encAddr_of_class hc⟩

/-- Settles O45, by `decode_readsWord`. -/
theorem encodeOfDecode : Obligations.EncodeOfDecode := by
  intro w ins h
  have hw := decode_readsWord w
  rwa [h] at hw

/-- The decoder rejects a word in one way only. -/
theorem eq_undefinedWord_of_decode_eq_error {w : Word} {e : Reject} (h : decode w = .error e) :
    e = .undefinedWord w := by
  have hw := decode_readsWord w
  rwa [h] at hw

/-! ### Undefined words (R86) -/

section Undefined

variable {w : Word}

theorem decodeClass8_eq_error_iff : decodeClass8 w = .error (.undefinedWord w) ↔
    fieldN w ∈ [(0x8 : Nibble), 0x9, 0xA, 0xB, 0xC, 0xD, 0xF] := by
  unfold decodeClass8
  split
  case h_10 =>
    have hlt := (fieldN w).isLt
    simp only [List.mem_cons, List.not_mem_nil, ← BitVec.toNat_inj, true_iff]
    grind
  all_goals next hn => simp [← BitVec.toNat_inj, hn]

theorem decodeClassE_eq_error_iff :
    decodeClassE w = .error (.undefinedWord w) ↔ fieldKK w ∉ [(0x9E : Byte), 0xA1] := by
  unfold decodeClassE
  split
  case h_3 =>
    simp only [List.mem_cons, List.not_mem_nil, ← BitVec.toNat_inj, true_iff]
    grind
  all_goals next hkk => simp [← BitVec.toNat_inj, hkk]

theorem decodeClassF_eq_error_iff : decodeClassF w = .error (.undefinedWord w) ↔
    fieldKK w ∉ [(0x07 : Byte), 0x0A, 0x15, 0x18, 0x1E, 0x29, 0x33, 0x55, 0x65] := by
  unfold decodeClassF
  split
  case h_10 =>
    simp only [List.mem_cons, List.not_mem_nil, ← BitVec.toNat_inj, true_iff]
    grind
  all_goals next hkk => simp [← BitVec.toNat_inj, hkk]

/-- The other classes have no undefined word. -/
theorem exists_decode_eq_ok (h5 : opClass w ≠ 0x5) (h8 : opClass w ≠ 0x8) (h9 : opClass w ≠ 0x9)
    (hE : opClass w ≠ 0xE) (hF : opClass w ≠ 0xF) : ∃ ins, decode w = .ok ins := by
  unfold decode
  split
  case h_6 hc => exact absurd (BitVec.eq_of_toNat_eq hc) h5
  case h_9 hc => exact absurd (BitVec.eq_of_toNat_eq hc) h8
  case h_10 hc => exact absurd (BitVec.eq_of_toNat_eq hc) h9
  case h_15 hc => exact absurd (BitVec.eq_of_toNat_eq hc) hE
  case h_16 =>
    have hlt := (opClass w).isLt
    exact absurd (BitVec.eq_of_toNat_eq (by grind)) hF
  all_goals exact ⟨_, rfl⟩

/-- The undefined words are those of R86, class by class. -/
theorem decode_eq_error_iff : decode w = .error (.undefinedWord w) ↔
    ((opClass w = 0x5 ∨ opClass w = 0x9) ∧ fieldN w ≠ 0) ∨
    (opClass w = 0x8 ∧ fieldN w ∈ [(0x8 : Nibble), 0x9, 0xA, 0xB, 0xC, 0xD, 0xF]) ∨
    (opClass w = 0xE ∧ fieldKK w ∉ [(0x9E : Byte), 0xA1]) ∨
    (opClass w = 0xF ∧
      fieldKK w ∉ [(0x07 : Byte), 0x0A, 0x15, 0x18, 0x1E, 0x29, 0x33, 0x55, 0x65]) := by
  by_cases h5 : opClass w = 0x5
  · rw [decode_class5 h5]
    simp [h5]
  by_cases h8 : opClass w = 0x8
  · rw [decode_class8 h8, decodeClass8_eq_error_iff]
    simp [h8]
  by_cases h9 : opClass w = 0x9
  · rw [decode_class9 h9]
    simp [h9]
  by_cases hE : opClass w = 0xE
  · rw [decode_classE hE, decodeClassE_eq_error_iff]
    simp [hE]
  by_cases hF : opClass w = 0xF
  · rw [decode_classF hF, decodeClassF_eq_error_iff]
    simp [hF]
  · obtain ⟨ins, h⟩ := exists_decode_eq_ok h5 h8 h9 hE hF
    simp only [h, h5, h8, h9, hE, hF, reduceCtorEq, false_and, or_false]

end Undefined

end Sys2Proof
end

section
/-! PROOFS. The cycle that fetches an undefined word (spec/30_encoding.md R86,
spec/60_exceptions.md R275). -/

namespace Sys2Proof.Machine

/-- The fetch reads no input of the cycle. -/
theorem fetchWord_beginCycle (s : State) (keys : Keys) (rnd : Byte) :
    fetchWord (s.beginCycle keys rnd) = fetchWord s := rfl

/-- A word that decodes to no instruction has the outcome of an undefined word. -/
theorem decodeAndExec_of_undefined {s : State} {w : Word} (h : ∀ ins, decode w ≠ .ok ins) :
    decodeAndExec s w = undefinedWord s w := by
  cases hd : decode w with
  | ok ins => exact absurd hd (h ins)
  | error e => simp only [decodeAndExec, hd]

theorem undefinedWord_of_unsupported {s : State} (w : Word)
    (h : s.config.undefinedWord = .unsupported) :
    undefinedWord s w = .fault (.unsupportedOpcode w) := by
  rw [undefinedWord, h, raise]

theorem undefinedWord_of_refused {s : State} (w : Word) (h : s.config.undefinedWord = .refused) :
    undefinedWord s w = .refused (.undefinedWord w) := by
  rw [undefinedWord, h, refuse]

/-- Settles O31: the words by `decode_eq_error_iff`; the cycle by its fetch, its decode and the
outcome the parameter names. -/
theorem undefinedWordsAreUnsupported : Obligations.UndefinedWordsAreUnsupported := by
  refine ⟨fun w => decode_eq_error_iff, fun s v keys rnd w hmark htake hfetch hundef => ?_⟩
  have hstep : step s = settle (v.beginCycle keys rnd) (runCycle (v.beginCycle keys rnd)) :=
    step_of_unmarked hmark htake
  rw [hstep, runCycle, fetchWord_beginCycle, hfetch, andThen_next,
    decodeAndExec_of_undefined hundef]
  cases hu : v.config.undefinedWord with
  | unsupported => rw [undefinedWord_of_unsupported (s := v.beginCycle keys rnd) w hu]; rfl
  | refused => rw [undefinedWord_of_refused (s := v.beginCycle keys rnd) w hu]; rfl

end Sys2Proof.Machine
end

section
/-! PROOFS. The opcode map (spec/30_encoding.md R83, R84): which rows of the table share a word, and
that the decoder by classes reads the first row a word matches. -/

namespace Sys2Proof

section Rows

variable {row r : OpcodeRow} {w : Word}

theorem OpcodeRow.matched_iff : row.matched w = true ↔ w &&& row.mask = row.pattern := beq_iff_eq

/-- Two rows that share a word agree on the bits that both fix. -/
theorem OpcodeRow.pattern_agree (hw : row.matched w = true) (hr : r.matched w = true) :
    row.pattern &&& r.mask = r.pattern &&& row.mask := by
  rw [← matched_iff.1 hw, ← matched_iff.1 hr, BitVec.and_assoc, BitVec.and_assoc,
    BitVec.and_comm row.mask]

end Rows

/-- The only rows of the map that agree on the bits both fix: SYS (row 33) and, before it, CLS and
RET. -/
theorem opcodeTable_agree : ∀ j k : Fin 35, j < k →
    opcodeTable[j].pattern &&& opcodeTable[k].mask =
      opcodeTable[k].pattern &&& opcodeTable[j].mask →
    k = 32 ∧ j < 2 := by decide

/-- Settles O47: rows that share a word agree on the bits both fix, and `opcodeTable_agree` says
which do. -/
theorem opcodeRowsDoNotOverlap : Obligations.OpcodeRowsDoNotOverlap := by
  intro w j k rj rk hj hk hjk hmj hmk
  obtain ⟨hjlt, rfl⟩ := List.getElem?_eq_some_iff.1 hj
  obtain ⟨hklt, rfl⟩ := List.getElem?_eq_some_iff.1 hk
  obtain ⟨hk32, hj2⟩ := opcodeTable_agree ⟨j, hjlt⟩ ⟨k, hklt⟩ hjk (OpcodeRow.pattern_agree hmj hmk)
  exact ⟨Fin.val_eq_of_eq hk32, hj2⟩

/-- The row of an instruction matches its encoding. -/
theorem encode_matches_row (ins : Instr) :
    ∃ row, opcodeTable[ins.rowIndex]? = some row ∧ row.matched (encode ins) = true := by
  cases ins with
  | cls | ret => exact ⟨_, rfl, rfl⟩
  | jp nnn | call nnn | ldI nnn | jpV0 nnn | sys nnn =>
    exact ⟨_, rfl, OpcodeRow.matched_iff.2 (encAddr_mask ..)⟩
  | seImm x kk | sneImm x kk | ldImm x kk | addImm x kk | rnd x kk =>
    exact ⟨_, rfl, OpcodeRow.matched_iff.2 (encRK_mask ..)⟩
  | drw x y n => exact ⟨_, rfl, OpcodeRow.matched_iff.2 (encRRN_mask ..)⟩
  | seReg x y | sneReg x y | ldReg x y | orReg x y | andReg x y | xorReg x y | addReg x y
  | sub x y | shr x y | subn x y | shl x y =>
    exact ⟨_, rfl, OpcodeRow.matched_iff.2 (encRRN_mask_low ..)⟩
  | skp x | sknp x | addI x | ldF x | ldB x | dump x | load x | ldVxDt x | ldDtVx x | ldStVx x
  | ldVxK x => exact ⟨_, rfl, OpcodeRow.matched_iff.2 (encRK_mask_low ..)⟩

/-- The two rows of higher priority than SYS fix every bit: they match 00E0 and 00EE alone. -/
theorem rowIndex_lt_two_of_matched {w : Word} {ins : Instr} {j : Nat} {row : OpcodeRow}
    (hd : decode w = .ok ins) (hj : j < 2) (hrow : opcodeTable[j]? = some row)
    (hw : row.matched w = true) : ins.rowIndex < 2 := by
  have word_eq {p : Word} (hp : w &&& 0xFFFF = p) : w = p := BitVec.and_allOnes.symm.trans hp
  have hmatch := OpcodeRow.matched_iff.1 hw
  match j, hj with
  | 0, _ | 1, _ =>
    cases hrow
    rw [word_eq hmatch] at hd
    cases hd
    decide

/-! ### A word that some row matches is defined -/

theorem opClass_and (w m : Word) : opClass (w &&& m) = opClass w &&& opClass m :=
  BitVec.extractLsb'_and

theorem fieldN_and (w m : Word) : fieldN (w &&& m) = fieldN w &&& fieldN m :=
  BitVec.extractLsb'_and

theorem fieldKK_and (w m : Word) : fieldKK (w &&& m) = fieldKK w &&& fieldKK m :=
  BitVec.extractLsb'_and

section Fixed

variable {row : OpcodeRow} {w : Word} (h : row.matched w = true)
include h

/-! A field whose bits a row fixes is the pattern's in every word the row matches. -/

theorem OpcodeRow.opClass_pattern (hm : opClass row.mask = 0xF) :
    opClass row.pattern = opClass w := by
  rw [← matched_iff.1 h, opClass_and, hm, nibble_and_ones]

theorem OpcodeRow.fieldN_pattern (hm : fieldN row.mask = 0xF) : fieldN row.pattern = fieldN w := by
  rw [← matched_iff.1 h, fieldN_and, hm, nibble_and_ones]

theorem OpcodeRow.fieldKK_pattern (hm : fieldKK row.mask = 0xFF) :
    fieldKK row.pattern = fieldKK w := by
  rw [← matched_iff.1 h, fieldKK_and, hm, byte_and_ones]

end Fixed

/-- Every row fixes the class and, in the classes that have undefined words, the selector. -/
theorem opcodeTable_masks : ∀ row ∈ opcodeTable, opClass row.mask = 0xF ∧
    (opClass row.pattern ∈ [(0x5 : Nibble), 0x8, 0x9] → fieldN row.mask = 0xF) ∧
    (opClass row.pattern ∈ [(0xE : Nibble), 0xF] → fieldKK row.mask = 0xFF) := by decide

theorem opcodeTable_patterns : ∀ row ∈ opcodeTable,
    decode row.pattern ≠ .error (.undefinedWord row.pattern) := by decide

/-- Whether a word is undefined depends only on bits that a row fixes (R86), and no row's pattern
is undefined. -/
theorem decode_ne_undefined_of_matched {row : OpcodeRow} {w : Word} (hrow : row ∈ opcodeTable)
    (hw : row.matched w = true) : decode w ≠ .error (.undefinedWord w) := by
  intro hundef
  obtain ⟨hclass, hn, hkk⟩ := opcodeTable_masks row hrow
  refine opcodeTable_patterns row hrow (decode_eq_error_iff.2 ?_)
  rw [OpcodeRow.opClass_pattern hw hclass] at hn hkk ⊢
  rcases decode_eq_error_iff.1 hundef with ⟨h59, hsel⟩ | ⟨h8, hsel⟩ | ⟨hE, hsel⟩ | ⟨hF, hsel⟩
  · rw [OpcodeRow.fieldN_pattern hw (hn (by rcases h59 with h | h <;> simp [h]))]
    exact .inl ⟨h59, hsel⟩
  · rw [OpcodeRow.fieldN_pattern hw (hn (by simp [h8]))]
    exact .inr (.inl ⟨h8, hsel⟩)
  · rw [OpcodeRow.fieldKK_pattern hw (hkk (by simp [hE]))]
    exact .inr (.inr (.inl ⟨hE, hsel⟩))
  · rw [OpcodeRow.fieldKK_pattern hw (hkk (by simp [hF]))]
    exact .inr (.inr (.inr ⟨hF, hsel⟩))

/-- Settles O46. A decoded instruction's row matches its word, and an earlier row that matches too
could only be one of the two above SYS; a rejected word is undefined, so no row matches it. -/
theorem decodeFollowsTheOpcodeMap : Obligations.DecodeFollowsTheOpcodeMap := by
  intro w
  symm
  cases hd : decode w with
  | ok ins =>
    obtain ⟨-, rfl⟩ := encodeOfDecode w ins hd
    obtain ⟨row, hrow, hmatch⟩ := encode_matches_row ins
    obtain ⟨hlt, rfl⟩ := List.getElem?_eq_some_iff.1 hrow
    refine List.findIdx?_eq_some_iff_getElem.2 ⟨hlt, hmatch, fun j hj hmj => ?_⟩
    have hrowj := List.getElem?_eq_getElem (hj.trans hlt)
    obtain ⟨hsys, hj2⟩ := opcodeRowsDoNotOverlap _ j _ _ _ hrowj hrow hj hmj hmatch
    have := rowIndex_lt_two_of_matched hd hj2 hrowj hmj
    omega
  | error e =>
    obtain rfl := eq_undefinedWord_of_decode_eq_error hd
    refine List.findIdx?_eq_none_iff.2 fun row hrow => Bool.eq_false_iff.2 fun hw => ?_
    exact decode_ne_undefined_of_matched hrow hw hd

/-- Settles O48, by running the decoder on each word. -/
theorem specWordsDecode : Obligations.SpecWordsDecode := by
  unfold Obligations.SpecWordsDecode
  decide

end Sys2Proof
end

section
/-! PROOFS. The control-flow instructions and the PC (spec/40_cycle_and_control_flow.md R104, R107
to R114), and the frame of a CALL until its RET (R116). -/

namespace Sys2Proof.Machine

/-! ### The PC (R104) -/

/-- A write of the PC writes nothing else. -/
theorem WritesPc.of_setPc (s : State) (w : Word) : WritesPc s (s.setPc w) :=
  ⟨rfl, fun _ _ => rfl, fun _ => rfl⟩

/-- Settles O3, by the state JP names. -/
theorem jpGoesToItsAddress : Obligations.JpGoesToItsAddress := fun nnn _ =>
  ⟨_, rfl, toNat_addrWord nnn, .of_setPc ..⟩

/-- What a skip on the condition `p` does. -/
theorem State.skipIf_spec (s : State) {c : Bool} {p : Prop} [Decidable p] (h : c = true ↔ p) :
    WritesPc s (s.skipIf c) ∧ (s.skipIf c).pc = if p then s.pc + 4 else s.pc + 2 :=
  ⟨.of_setPc s _, by simp only [State.skipIf_pc, h]⟩

/-- Settles O5: each of the four is a skip on its condition. -/
theorem skipsFollowTheirConditions : Obligations.SkipsFollowTheirConditions := by
  refine ⟨fun x kk s => ⟨⟨_, rfl, ?_⟩, ⟨_, rfl, ?_⟩⟩, fun x y s => ⟨⟨_, rfl, ?_⟩, ⟨_, rfl, ?_⟩⟩⟩
  · exact s.skipIf_spec beq_iff_eq
  · exact s.skipIf_spec bne_iff_ne
  · exact s.skipIf_spec beq_iff_eq
  · exact s.skipIf_spec bne_iff_ne

/-- A skip instruction does nothing but skip, on some condition. -/
theorem exec_eq_skipIf {ins : Instr} {s t : State} (h : exec ins s = .next t)
    (hrule : pcRule ins = .skip) : ∃ c, t = s.skipIf c := by
  cases ins with
  | skp x => exact ⟨_, (exec_skp_eq_next.1 h).2⟩
  | sknp x => exact ⟨_, (exec_sknp_eq_next.1 h).2⟩
  | seImm | sneImm | seReg | sneReg => cases h; exact ⟨_, rfl⟩
  | _ => cases hrule

/-- An instruction that neither skips nor redirects moves the PC past itself. -/
theorem exec_pc_of_plain {ins : Instr} {s t : State} (h : exec ins s = .next t)
    (hrule : pcRule ins = .plain) : t.pc = s.pc + 2 := by
  cases ins with
  | ldB x => obtain ⟨-, -, rfl⟩ := exec_ldB_eq_next.1 h; rw [State.putBytes_eq]; rfl
  | dump x =>
    obtain ⟨-, -, rfl⟩ := exec_dump_eq_next.1 h
    rw [State.bumpI_eq, State.putBytes_eq]
    rfl
  | load x => obtain ⟨-, rfl⟩ := exec_load_eq_next.1 h; rw [State.bumpI_eq, State.setRegs_eq]; rfl
  | drw x y n => obtain ⟨-, rfl⟩ := exec_drw_eq_next.1 h; rfl
  | sys nnn => obtain ⟨-, rfl⟩ := exec_sys_eq_next.1 h; rfl
  | sub | subn | shr | shl => cases h; rw [(State.flagThenResult_frame ..).1]; rfl
  | ret | jp | call | seImm | sneImm | seReg | sneReg | skp | sknp | jpV0 | ldVxK => cases hrule
  | _ => cases h; rfl

/-- Settles O8, by the two kinds of instruction that do not redirect. -/
theorem pcAdvancesByTwoUnlessRedirected : Obligations.PcAdvancesByTwoUnlessRedirected := by
  intro ins s t h
  refine ⟨exec_pc_of_plain h, fun hrule => ?_⟩
  obtain ⟨c, rfl⟩ := exec_eq_skipIf h hrule
  cases c with
  | true => exact .inl rfl
  | false => exact .inr rfl

/-! ### The screen and the timers (R105, R107) -/

/-- Settles O1: 00E0 puts the blank framebuffer in place. -/
theorem clsUnlightsEveryCell : Obligations.ClsUnlightsEveryCell := fun _ =>
  ⟨_, rfl, pixel_blank, rfl, fun _ _ => rfl, fun _ => rfl⟩

/-- Each timer is kept by every instruction but the one that loads it. -/
theorem exec_timers {ins : Instr} {s t : State} (h : exec ins s = .next t) :
    (t.dt = s.dt ∨ ∃ x, ins = .ldDtVx x) ∧ (t.st = s.st ∨ ∃ x, ins = .ldStVx x) := by
  cases ins with
  | ldDtVx x => cases h; exact ⟨.inr ⟨x, rfl⟩, .inl rfl⟩
  | ldStVx x => cases h; exact ⟨.inl rfl, .inr ⟨x, rfl⟩⟩
  | ret => obtain ⟨_, rfl⟩ := exec_ret_eq_next.1 h; exact ⟨.inl rfl, .inl rfl⟩
  | call nnn => obtain ⟨_, rfl⟩ := exec_call_eq_next.1 h; exact ⟨.inl rfl, .inl rfl⟩
  | skp | sknp => obtain ⟨c, rfl⟩ := exec_eq_skipIf h rfl; exact ⟨.inl rfl, .inl rfl⟩
  | ldB x =>
    obtain ⟨-, -, rfl⟩ := exec_ldB_eq_next.1 h
    rw [State.putBytes_eq]
    exact ⟨.inl rfl, .inl rfl⟩
  | dump x =>
    obtain ⟨-, -, rfl⟩ := exec_dump_eq_next.1 h
    rw [State.bumpI_eq, State.putBytes_eq]
    exact ⟨.inl rfl, .inl rfl⟩
  | load x =>
    obtain ⟨-, rfl⟩ := exec_load_eq_next.1 h
    rw [State.bumpI_eq, State.setRegs_eq]
    exact ⟨.inl rfl, .inl rfl⟩
  | drw x y n => obtain ⟨-, rfl⟩ := exec_drw_eq_next.1 h; exact ⟨.inl rfl, .inl rfl⟩
  | sys nnn => obtain ⟨-, rfl⟩ := exec_sys_eq_next.1 h; exact ⟨.inl rfl, .inl rfl⟩
  | jpV0 nnn => obtain ⟨-, rfl⟩ := exec_jpV0_eq_next.1 h; exact ⟨.inl rfl, .inl rfl⟩
  | ldVxK x =>
    obtain ⟨-, rfl⟩ := exec_ldVxK_eq_next.1 h
    cases s.lowestKey <;> exact ⟨.inl rfl, .inl rfl⟩
  | sub | subn | shr | shl =>
    cases h
    rw [(State.flagThenResult_frame ..).1]
    exact ⟨.inl rfl, .inl rfl⟩
  | _ => cases h; exact ⟨.inl rfl, .inl rfl⟩

/-- Settles O57, by `exec_timers`. -/
theorem cyclesKeepTheTimers : Obligations.CyclesKeepTheTimers := by
  intro ins s t h
  obtain ⟨hdt, hst⟩ := exec_timers h
  exact ⟨hdt.resolve_left, hst.resolve_left⟩

/-! ### CALL and the frame it pushes (R110, R116) -/

/-- A push with every slot in use raises StackOverflow (R272). -/
theorem push_of_full {s : State} (h : s.sp.val = 16) (w : Word) :
    push s w = .fault .stackOverflow := by
  rw [push, dif_neg (by omega), raise]

/-- The slots after a CALL (R27, R110). -/
theorem exec_call_slot {nnn : Addr} {s t : State} (h : exec (.call nnn) s = .next t)
    (j : Fin 16) : t.slot j = if s.sp.val = j.val then s.pc + 2 else s.slot j := by
  obtain ⟨hfree, rfl⟩ := exec_call_eq_next.1 h
  exact State.slot_of_stack_set (hk := hfree) rfl j

/-- Settles O4: with a free slot by the push's next state, and with none by its fault. -/
theorem callPushesTheReturnAddress : Obligations.CallPushesTheReturnAddress := by
  refine ⟨fun nnn s k hk => ?_, fun nnn s hs => ?_⟩
  · have hfree : s.sp.val < 16 := by omega
    have hcall := (exec_call_eq_next (nnn := nnn)).2 ⟨hfree, rfl⟩
    have hslot := exec_call_slot hcall
    refine ⟨_, hcall, toNat_addrWord nnn, congrArg (· + 1) hk, (hslot k).trans (if_pos hk),
      fun j hj => (hslot j).trans (if_neg fun hj' => hj ?_), rfl, fun _ _ => rfl, fun _ => rfl⟩
    exact Fin.ext (hj'.symm.trans hk)
  · rw [exec, execCall, push_of_full hs, andThen_fault]

/-- An instruction writes no slot below the frame count: CALL writes the first one above. -/
theorem exec_slot_of_active {ins : Instr} {s t : State} (h : exec ins s = .next t) {k : Fin 16}
    (hk : k.val < s.sp.val) : t.slot k = s.slot k := by
  rcases exec_frames h with ⟨-, hst⟩ | ⟨-, hst⟩ | ⟨nnn, -, hsp, hst⟩
  · rw [State.slot, State.slot, hst]
  · rw [State.slot, State.slot, hst]
  · rw [State.slot_of_stack_set hst, if_neg hk.ne']

/-- A step keeps the slot of every frame active before it, that of a popped frame included (R27). -/
theorem step_slot_of_active {s t : State} (h : step s = .next t) {k : Fin 16}
    (hk : k.val < s.sp.val) : t.slot k = s.slot k := by
  rcases step_writers h with ⟨u, ins, hrun, hexec⟩ | ⟨ht, -⟩
  · exact (exec_slot_of_active hexec (hrun.sp.symm ▸ hk)).trans (hrun.slot k)
  · rw [ht]; rfl

/-- Settles O55, by `step_slot_of_active`. -/
theorem stepKeepsActiveFrames : Obligations.StepKeepsActiveFrames :=
  fun _ _ _ hk h _ => step_slot_of_active h hk

/-- A frame that stays active along a run of steps keeps its return address. -/
theorem StaysAbove.slot_kept {k : Fin 16} {s t : State} (h : StaysAbove k.val s t)
    (hs : k.val < s.sp.val) : k.val < t.sp.val ∧ t.slot k = s.slot k := by
  induction h with
  | refl => exact ⟨hs, rfl⟩
  | step _ hstep hactive ih =>
    obtain ⟨hk, hslot⟩ := ih
    exact ⟨hactive, (step_slot_of_active hstep hk).trans hslot⟩

/-- Settles O6: CALL put PC + 2 in slot d, the steps kept it there, and RET pops slot d. -/
theorem retReturnsPastTheMatchingCall : Obligations.RetReturnsPastTheMatchingCall := by
  intro nnn s t u hcall hstays hu
  obtain ⟨hfree, -⟩ := exec_call_eq_next.1 hcall
  obtain ⟨d, hd⟩ : ∃ d : Fin 16, s.sp.val = d.val := ⟨⟨_, hfree⟩, rfl⟩
  rw [hd] at hstays hu
  obtain ⟨t', hcall', -, htsp, htslot, -⟩ := callPushesTheReturnAddress.1 nnn s d hd
  obtain rfl : t = t' := Host.Outcome.next.inj (hcall.symm.trans hcall')
  obtain ⟨-, huslot⟩ := hstays.slot_kept (by omega)
  obtain ⟨w, hret, hwpc, hwsp, -⟩ := retPopsTheReturnAddress.1 u d hu
  have hpc : w.pc = s.pc + 2 :=
    calc w.pc = u.slot d := hwpc
      _ = t.slot d := huslot
      _ = s.pc + 2 := htslot
  exact ⟨w, hret, hpc, Fin.ext (hwsp.trans hd.symm)⟩

end Sys2Proof.Machine
end

section
/-! PROOFS. The engine cycle (spec/40_cycle_and_control_flow.md R100 to R103): its fetch, and the
step of a cycle whose word decodes. -/

namespace Sys2Proof.Machine

/-! ### The fetch (R101) -/

/-- No word starts at a PC of 0xFFF or more. -/
theorem fetchWord_of_pc_ge {s : State} (h : s.pc.toNat ≥ 0xFFF) :
    fetchWord s = .fault .memoryFault := by
  rw [fetchWord, memRead2, if_pos (by omega), raise]

section Cycle

variable {s v : State} {keys : Keys} {rnd : Byte} (hmark : s.refusal = none)
  (htake : takeCall s = (.cycle keys rnd, v))
include hmark htake

/-- A step whose call is a cycle, by what the fetch answers. -/
theorem step_of_cycle : step s = settle (v.beginCycle keys rnd)
    (andThen (fetchWord v) (decodeAndExec (v.beginCycle keys rnd))) :=
  step_of_unmarked hmark htake

/-- A cycle whose word decodes settles what the instruction answers. -/
theorem step_of_decode {w : Word} {ins : Instr} (hfetch : fetchWord v = .next w)
    (hdecode : decode w = .ok ins) :
    step s = settle (v.beginCycle keys rnd) (exec ins (v.beginCycle keys rnd)) := by
  rw [step_of_cycle hmark htake, hfetch, andThen_next]
  simp only [decodeAndExec, hdecode]

end Cycle

/-- Settles O30: the fetch by its bounds check; the cycle by taking the fetch's error. -/
theorem fetchReadsTwoBytesOrFaults : Obligations.FetchReadsTwoBytesOrFaults := by
  refine ⟨fun _ hpc => fetchWord_eq_next.2 ⟨hpc, rfl⟩, fun _ => fetchWord_of_pc_ge, ?_⟩
  intro s v keys rnd hmark htake hpc
  rw [step_of_cycle hmark htake, fetchWord_of_pc_ge hpc]
  rfl

/-! ### The step (R100, R102, R103) -/

theorem takeCall_of_cons {s : State} {c : HostCall} {rest : List HostCall}
    (h : s.host = c :: rest) : takeCall s = (c, { s with host := rest }) := by
  simp only [takeCall, h]

theorem takeCall_of_nil {s : State} (h : s.host = []) :
    takeCall s = (.cycle (Config.freeKeys s.draws) (Config.freeRnd s.draws),
      { s.ticks (Config.freeTicks s.draws) with draws := s.draws + 1 }) := by
  simp only [takeCall, h]

/-- Settles O29: the step by `step_of_decode` and the three answers of the instruction; the next
call by whether the schedule has one. -/
theorem stepExecutesTheDecodedInstruction : Obligations.StepExecutesTheDecodedInstruction := by
  refine ⟨?_, fun _ _ _ => takeCall_of_cons, fun _ => takeCall_of_nil⟩
  rintro s v u keys rnd ins hmark htake hpc hdecode rfl
  have hstep := step_of_decode hmark htake (fetchWord_eq_next.2 ⟨hpc, rfl⟩) hdecode
  rw [State.beginCycle] at hstep
  rw [hstep]
  cases exec ins _ with
  | next t => rfl
  | fault e => rfl
  | refused r => rfl

/-- What the word at a self-jump is (R298). -/
theorem selfJump_iff {s : State} : selfJump s = true ↔
    ∃ w nnn, fetchWord s = .next w ∧ decode w = .ok (.jp nnn) ∧ addrWord nnn = s.pc := by
  unfold selfJump
  constructor
  · intro h
    split at h
    case h_1 w hfetch =>
      split at h
      case h_1 nnn hdecode => exact ⟨w, nnn, hfetch, hdecode, beq_iff_eq.1 h⟩
      case h_2 => cases h
    all_goals cases h
  · rintro ⟨w, nnn, hfetch, hdecode, hpc⟩
    simp only [hfetch, hdecode, hpc, beq_self_eq_true]

/-- Settles O33: the cycle executes the jump, which writes the PC it had. -/
theorem selfJumpRepeats : Obligations.SelfJumpRepeats := by
  intro s keys rnd rest hmark hhost hself
  obtain ⟨w, nnn, hfetch, hdecode, hpc⟩ := selfJump_iff.1 hself
  rw [step_of_decode hmark (takeCall_of_cons hhost) hfetch hdecode, exec, execJp, hpc]
  rfl

end Sys2Proof.Machine
end

section
/-! PROOFS. The register data instructions (spec/41_register_data.md R140 to R151): what each writes,
and the table of outcomes where VF is an operand. -/

namespace Sys2Proof.Machine

/-! ### The writes and their frame -/

/-- A write of one register and the post-execute PC write nothing else. -/
theorem WritesRegs.of_setReg (s : State) (x : Nibble) (b : Byte) :
    WritesRegs [x] s (s.setReg x b).advance :=
  ⟨rfl, .of_setReg rfl, fun _ => rfl⟩

section TwoWrites

/-! The two writes of an instruction that sets a flag, and the post-execute PC. -/

variable (s : State) (x y : Nibble) (result flag : Byte → Byte → Byte)

theorem WritesRegs.of_resultThenFlag :
    WritesRegs [x, vF] s (s.resultThenFlag x y result flag).advance :=
  ⟨rfl, .of_resultThenFlag rfl, fun _ => rfl⟩

theorem WritesRegs.of_flagThenResult :
    WritesRegs [x, vF] s (s.flagThenResult x y result flag).advance := by
  refine ⟨?_, .of_flagThenResult rfl, fun a => ?_⟩
  · rw [(State.flagThenResult_frame ..).1]; rfl
  · rw [(State.flagThenResult_frame ..).1]; rfl

end TwoWrites

/-! ### The flag-first form where VF is an operand (R151) -/

section FlagThenResult

variable {s : State} {x y : Nibble} (result flag : Byte → Byte → Byte)

/-- Where `x` is not VF, VF holds the flag under every setting of `VF_ALIAS`. -/
theorem State.flagThenResult_vF_of_ne (hx : x ≠ vF) :
    (s.flagThenResult x y result flag).reg vF = flag (s.reg x) (s.reg y) := by
  cases h : s.config.vfAlias with
  | textOrder => rw [flagThenResult_textOrder h, reg_setReg_ne _ hx.symm, reg_setReg_self]
  | sequential => rw [flagThenResult_sequential h, reg_setReg_ne _ hx.symm, reg_setReg_self]
  | flagLast => rw [flagThenResult_flagLast h, reg_setReg_self]

/-- The settings and operands for which R151's table is not needed: both writes are computed from
the old operands, and the result is the later one. -/
theorem State.flagThenResult_of_textOrder_or_ne
    (h : s.config.vfAlias = .textOrder ∨ (x ≠ vF ∧ y ≠ vF)) :
    (s.flagThenResult x y result flag).reg x = result (s.reg x) (s.reg y) ∧
    (x ≠ vF → (s.flagThenResult x y result flag).reg vF = flag (s.reg x) (s.reg y)) := by
  refine ⟨?_, flagThenResult_vF_of_ne result flag⟩
  rcases h with h | ⟨hx, hy⟩
  · rw [flagThenResult_textOrder h, reg_setReg_self]
  · exact (s.flagThenResult_plain result flag hx hy).1

/-- The table's rows with x = F, y ≠ F. -/
theorem State.flagThenResult_into_vF (hy : y ≠ vF) :
    (s.flagThenResult vF y result flag).reg vF =
      match s.config.vfAlias with
      | .textOrder => result (s.reg vF) (s.reg y)
      | .sequential => result (flag (s.reg vF) (s.reg y)) (s.reg y)
      | .flagLast => flag (s.reg vF) (s.reg y) := by
  cases h : s.config.vfAlias with
  | textOrder => rw [flagThenResult_textOrder h, reg_setReg_self]
  | sequential =>
    rw [flagThenResult_sequential h, reg_setReg_self, reg_setReg_self, reg_setReg_ne _ hy]
  | flagLast => rw [flagThenResult_flagLast h, reg_setReg_self]

/-- The table's rows with x ≠ F, y = F: the result that Vx receives. -/
theorem State.flagThenResult_from_vF (hx : x ≠ vF) :
    (s.flagThenResult x vF result flag).reg x =
      match s.config.vfAlias with
      | .textOrder => result (s.reg x) (s.reg vF)
      | .sequential => result (s.reg x) (flag (s.reg x) (s.reg vF))
      | .flagLast => result (s.reg x) (s.reg vF) := by
  cases h : s.config.vfAlias with
  | textOrder => rw [flagThenResult_textOrder h, reg_setReg_self]
  | sequential =>
    rw [flagThenResult_sequential h, reg_setReg_self, reg_setReg_self, reg_setReg_ne _ hx]
  | flagLast => rw [flagThenResult_flagLast h, reg_setReg_ne _ hx, reg_setReg_self]

/-- The table's rows with x = y = F, and its shifts, whose one operand is VF. -/
theorem State.flagThenResult_vF_vF :
    (s.flagThenResult vF vF result flag).reg vF =
      match s.config.vfAlias with
      | .textOrder => result (s.reg vF) (s.reg vF)
      | .sequential =>
        result (flag (s.reg vF) (s.reg vF)) (flag (s.reg vF) (s.reg vF))
      | .flagLast => flag (s.reg vF) (s.reg vF) := by
  cases h : s.config.vfAlias with
  | textOrder => rw [flagThenResult_textOrder h, reg_setReg_self]
  | sequential => rw [flagThenResult_sequential h, reg_setReg_self, reg_setReg_self]
  | flagLast => rw [flagThenResult_flagLast h, reg_setReg_self]

/-- A subtraction of VF from itself: under every setting a difference of equals, or its flag, which
is 0. -/
theorem State.flagThenResult_vF_vF_eq_zero (hresult : ∀ a, result a a = 0)
    (hflag : ∀ a, flag a a = 0) : (s.flagThenResult vF vF result flag).reg vF = 0 := by
  rw [flagThenResult_vF_vF]
  cases s.config.vfAlias with
  | textOrder => exact hresult _
  | sequential => exact hresult _
  | flagLast => exact hflag _

end FlagThenResult

/-! ### The flags and results as numbers -/

theorem carryFlag_eq_ite (a b : Byte) :
    carryFlag a b = if a.toNat + b.toNat > 255 then 1 else 0 := by
  simp only [carryFlag, flagByte, decide_eq_true_eq]

theorem greaterFlag_eq_ite (a b : Byte) :
    greaterFlag a b = if a.toNat > b.toNat then 1 else 0 := by
  simp only [greaterFlag, flagByte, decide_eq_true_eq]

/-- The comparison is strict (R147). -/
theorem greaterFlag_self (a : Byte) : greaterFlag a a = 0 := by
  rw [greaterFlag_eq_ite, if_neg (lt_irrefl _)]

theorem toNat_flagByte (c : Bool) : (flagByte c).toNat = c.toNat := by cases c <;> rfl

theorem toNat_lowBitFlag (a : Byte) : (lowBitFlag a).toNat = a.toNat % 2 := by
  rw [lowBitFlag, toNat_flagByte, BitVec.getLsbD, Nat.toNat_testBit, Nat.pow_zero, Nat.div_one]

theorem toNat_highBitFlag (a : Byte) : (highBitFlag a).toNat = a.toNat / 128 := by
  rw [highBitFlag, toNat_flagByte, BitVec.getLsbD, Nat.toNat_testBit]
  omega

theorem toNat_byte_sub (a b : Byte) : (a - b).toNat = (a.toNat + 256 - b.toNat) % 256 := by
  rw [BitVec.toNat_sub]
  omega

theorem toNat_byte_shr (a : Byte) : (a >>> 1).toNat = a.toNat / 2 := by
  rw [BitVec.toNat_ushiftRight, Nat.shiftRight_one]

theorem toNat_byte_shl (a : Byte) : (a <<< 1).toNat = a.toNat * 2 % 256 := by
  rw [BitVec.toNat_shiftLeft, Nat.shiftLeft_eq, Nat.pow_one]

/-- A flag shifted right is 0: what 8xy6 on VF gives under `sequential` (R151). -/
theorem toNat_lowBitFlag_shr (a : Byte) : (lowBitFlag a >>> 1).toNat = 0 := by
  rw [toNat_byte_shr, toNat_lowBitFlag]
  omega

/-- A flag shifted left is twice the flag: what 8xyE on VF gives under `sequential` (R151). -/
theorem toNat_highBitFlag_shl (a : Byte) :
    (highBitFlag a <<< 1).toNat = 2 * (a.toNat / 128) := by
  rw [toNat_byte_shl, toNat_highBitFlag]
  omega

/-! ### Loads, the immediate sum and the bitwise operations (R140 to R145) -/

/-- Settles O9, by the register written. -/
theorem ldImmLoadsItsByte : Obligations.LdImmLoadsItsByte := fun x kk s =>
  ⟨_, rfl, s.reg_setReg_self x kk, .of_setReg ..⟩

/-- Settles O10: the sum of two bytes is the sum of their values modulo 256. -/
theorem addImmWrapsWithoutFlag : Obligations.AddImmWrapsWithoutFlag := by
  refine fun x kk s => ⟨_, rfl, ?_, .of_setReg ..⟩
  rw [State.reg_advance, State.reg_setReg_self, BitVec.toNat_add]

/-- Settles O11, by the register written. -/
theorem ldRegCopiesVy : Obligations.LdRegCopiesVy := fun x y s =>
  ⟨_, rfl, s.reg_setReg_self x (s.reg y), .of_setReg ..⟩

/-- Settles O12: each operation by its bits. -/
theorem bitwiseOperationsBitByBit : Obligations.BitwiseOperationsBitByBit := by
  refine fun x y s => ⟨⟨_, rfl, .of_setReg .., fun k => ?_⟩, ⟨_, rfl, .of_setReg .., fun k => ?_⟩,
    ⟨_, rfl, .of_setReg .., fun k => ?_⟩⟩
  · rw [State.reg_advance, State.reg_setReg_self, BitVec.getLsbD_or]
  · rw [State.reg_advance, State.reg_setReg_self, BitVec.getLsbD_and]
  · rw [State.reg_advance, State.reg_setReg_self, BitVec.getLsbD_xor]

/-! ### The sum with carry (R146) -/

/-- Settles O13: the sum is computed once, and the carry is the later write. -/
theorem addRegSetsCarry : Obligations.AddRegSetsCarry := by
  intro x y s
  obtain ⟨-, hflag, hresult, -⟩ := s.resultThenFlag_spec x y (fun a b => a + b) carryFlag
  refine ⟨_, rfl, .of_resultThenFlag .., fun hx => ?_, ?_⟩
  · rw [State.reg_advance, hresult hx, BitVec.toNat_add]
  · rw [State.reg_advance, hflag, carryFlag_eq_ite]

/-! ### Subtractions and shifts (R147 to R150) -/

/-- Settles O14, by the flag-first form outside R151's table. -/
theorem subtractionsSetStrictFlags : Obligations.SubtractionsSetStrictFlags := by
  refine fun x y s => ⟨⟨_, rfl, .of_flagThenResult .., fun h => ?_⟩,
    ⟨_, rfl, .of_flagThenResult .., fun h => ?_⟩⟩
  all_goals
    obtain ⟨hresult, hflag⟩ := State.flagThenResult_of_textOrder_or_ne _ _ h
    refine ⟨?_, fun hx => ?_⟩
    · rw [State.reg_advance, hresult, toNat_byte_sub]
    · rw [State.reg_advance, hflag hx, greaterFlag_eq_ite]

/-- Settles O15: `exec` does not hand `y` on, and the one operand is `x`. -/
theorem shiftsMoveABitIntoTheFlag : Obligations.ShiftsMoveABitIntoTheFlag := by
  refine fun x y s => ⟨fun _ => ⟨rfl, rfl⟩, ⟨_, rfl, .of_flagThenResult .., fun h => ?_⟩,
    ⟨_, rfl, .of_flagThenResult .., fun h => ?_⟩⟩
  · obtain ⟨hresult, hflag⟩ := State.flagThenResult_of_textOrder_or_ne
      (fun a _ => a >>> 1) (fun a _ => lowBitFlag a) (h.imp_right fun hx => ⟨hx, hx⟩)
    refine ⟨?_, fun hx => ?_⟩
    · rw [State.reg_advance, hresult, toNat_byte_shr]
    · rw [State.reg_advance, hflag hx, toNat_lowBitFlag]
  · obtain ⟨hresult, hflag⟩ := State.flagThenResult_of_textOrder_or_ne
      (fun a _ => a <<< 1) (fun a _ => highBitFlag a) (h.imp_right fun hx => ⟨hx, hx⟩)
    refine ⟨?_, fun hx => ?_⟩
    · rw [State.reg_advance, hresult, toNat_byte_shl]
    · rw [State.reg_advance, hflag hx, toNat_highBitFlag]

/-! ### The table of R151 -/

/-- The table's row of 8xy6 with x = F. -/
theorem exec_shr_vF {y : Nibble} {s t : State} (h : exec (.shr vF y) s = .next t) :
    (t.reg vF).toNat =
      match s.config.vfAlias with
      | .textOrder => (s.reg vF).toNat / 2
      | .sequential => 0
      | .flagLast => (s.reg vF).toNat % 2 := by
  cases h
  rw [State.reg_advance, State.flagThenResult_vF_vF]
  cases s.config.vfAlias with
  | textOrder => exact toNat_byte_shr _
  | sequential => exact toNat_lowBitFlag_shr _
  | flagLast => exact toNat_lowBitFlag _

/-- The table's row of 8xyE with x = F. -/
theorem exec_shl_vF {y : Nibble} {s t : State} (h : exec (.shl vF y) s = .next t) :
    (t.reg vF).toNat =
      match s.config.vfAlias with
      | .textOrder => (s.reg vF).toNat * 2 % 256
      | .sequential => 2 * ((s.reg vF).toNat / 128)
      | .flagLast => (s.reg vF).toNat / 128 := by
  cases h
  rw [State.reg_advance, State.flagThenResult_vF_vF]
  cases s.config.vfAlias with
  | textOrder => exact toNat_byte_shl _
  | sequential => exact toNat_highBitFlag_shl _
  | flagLast => exact toNat_highBitFlag _

/-- Settles O16, row by row: 8xy4 by the sum-first form; the other instructions by the rows of the
flag-first form. -/
theorem vfAliasOutcomes : Obligations.VfAliasOutcomes := by
  refine ⟨fun y s t h => ?_, fun x s t hx h => ?_, fun y s t hy h => ?_, fun x s t hx h => ?_,
    fun s t h => ?_, fun y s t hy h => ?_, fun x s t hx h => ?_, fun s t h => ?_,
    fun _ _ _ => exec_shr_vF, fun _ _ _ => exec_shl_vF⟩
  case refine_1 =>
    obtain ⟨-, hflag, -⟩ := s.resultThenFlag_spec vF y (fun a b => a + b) carryFlag
    cases h
    exact hflag
  case refine_2 =>
    obtain ⟨-, hflag, hresult, -⟩ := s.resultThenFlag_spec x vF (fun a b => a + b) carryFlag
    cases h
    exact ⟨hresult hx, hflag⟩
  -- x = F, y ≠ F
  case refine_3 | refine_6 => cases h; exact State.flagThenResult_into_vF _ _ hy
  -- x ≠ F, y = F
  case refine_4 | refine_7 =>
    cases h
    exact ⟨State.flagThenResult_vF_of_ne _ _ hx, State.flagThenResult_from_vF _ _ hx⟩
  -- x = y = F
  case refine_5 | refine_8 =>
    cases h
    exact State.flagThenResult_vF_vF_eq_zero _ _ BitVec.sub_self greaterFlag_self

end Sys2Proof.Machine
end

section
/-! PROOFS. The index, memory, random and timer instructions
(spec/42_index_memory_timer_data.md R180 to R189): what each writes, and where a block transfer
stops. -/

namespace Sys2Proof.Machine

/-! ### I, the random byte and the timers (R180 to R182, R186 to R189) -/

/-- A write of I and the post-execute PC write nothing else. -/
theorem State.setI_advance_frame (s : State) (w : Word) :
    (s.setI w).advance = { s with i := w, pc := s.pc + 2 } ∧
      RegsKept [] s (s.setI w).advance ∧ MemoryKept s (s.setI w).advance :=
  ⟨rfl, .of_v rfl _, fun _ => rfl⟩

/-- The glyphs stand one after the other from address 0 (R182). -/
theorem toNat_glyphAddr (a : Byte) : (glyphAddr a).toNat = 5 * (a.toNat % 16) := by
  rw [glyphAddr, BitVec.toNat_ofNat]
  omega

/-- Settles O17: each of the three writes I, with the value its operand form gives. -/
theorem indexRegisterWrites : Obligations.IndexRegisterWrites := by
  refine ⟨fun nnn s => ⟨_, rfl, ?_, s.setI_advance_frame _⟩,
    fun x s => ⟨_, rfl, ?_, s.setI_advance_frame _⟩,
    fun x s => ⟨_, rfl, ?_, s.setI_advance_frame _⟩⟩
  · exact toNat_addrWord nnn
  · rw [State.advance_i, State.setI_i, BitVec.toNat_add, toNat_byteWord]
  · exact toNat_glyphAddr (s.reg x)

/-- Settles O21: Vx receives the AND of the two bytes, which is read bit by bit. -/
theorem rndMasksTheRandomByte : Obligations.RndMasksTheRandomByte := by
  refine fun x kk s => ⟨_, rfl, .of_setReg .., fun k => ?_⟩
  rw [State.reg_advance, State.reg_setReg_self, BitVec.getLsbD_and]

/-- Settles O22: a register write for Fx07, and a timer write for the two others. -/
theorem timerTransfers : Obligations.TimerTransfers := by
  refine fun x s => ⟨⟨_, rfl, ?_, .of_setReg ..⟩,
    ⟨_, rfl, rfl, rfl, .of_v rfl _, fun _ => rfl⟩, ⟨_, rfl, rfl, rfl, .of_v rfl _, fun _ => rfl⟩⟩
  rw [State.reg_advance, State.reg_setReg_self]

/-! ### Where a block transfer stops (R54, R60) -/

section Block

variable {s : State} {a : Nat}

/-- A block store past the last address raises MemoryFault. -/
theorem storeBlock_of_past_end {bs : List Byte} (h : memSize < a + bs.length) :
    storeBlock s a bs = .fault .memoryFault := by
  rw [storeBlock, if_pos h, raise]

/-- A block store of at most 16 bytes that starts in the font region ends inside memory, and under
`FONT_WRITE = refused` it is refused at its first address. -/
theorem storeBlock_of_font {bs : List Byte} (hlen : bs.length ≤ 16) (ha : a ≤ 0x04F)
    (hf : s.config.fontWrite = .refused) :
    storeBlock s a bs = .refused (.fontRegionWrite a) := by
  have hend : ¬memSize < a + bs.length := by
    unfold memSize
    omega
  rw [storeBlock, if_neg hend, if_pos ⟨ha, hf⟩, refuse]

/-- A read of some bytes past the last address raises MemoryFault. -/
theorem loadBlock_of_past_end {n : Nat} (hn : 0 < n) (h : memSize < a + n) :
    loadBlock s a n = .fault .memoryFault := by
  rw [loadBlock, if_pos ⟨hn, h⟩, raise]

end Block

/-! ### The digits of Fx33 (R183) -/

/-- The digit at place `k` is that of 10 ^ (2 - k). -/
theorem toNat_getElem_bcdDigits (a : Byte) {k : Nat} (hk : k < (bcdDigits a).length) :
    (bcdDigits a)[k].toNat = a.toNat / 10 ^ (2 - k) % 10 := by
  have ha : a.toNat < 256 := a.isLt
  match k, hk with
  | 0, _ => exact (BitVec.toNat_ofNat ..).trans (by omega)
  | 1, _ => exact (BitVec.toNat_ofNat ..).trans (by omega)
  | 2, _ => exact (BitVec.toNat_ofNat ..).trans (by omega)

/-- The bytes of a block store, wherever it reaches (R54). -/
theorem State.byteAt_putBytes_add {s : State} {a k : Nat} {bs : List Byte} (hk : k < bs.length)
    (hs : 0x04F < a + k ∨ s.config.fontWrite = .write) :
    (s.putBytes a bs).byteAt (a + k) = bs[k] := by
  rw [State.byteAt_putBytes, if_pos ⟨Nat.le_add_right a k, State.storable_iff.2 hs⟩,
    Nat.add_sub_cancel_left, List.getElem?_eq_getElem hk, Option.getD_some]

/-- After Fx33, the byte at I + k is the k-th digit of Vx wherever the store reaches. -/
theorem exec_ldB_byteAt {x : Nibble} {s t : State} (h : exec (.ldB x) s = .next t) {k : Nat}
    (hk : k < 3) (hs : 0x04F < s.i.toNat + k ∨ s.config.fontWrite = .write) :
    (t.byteAt (s.i.toNat + k)).toNat = (s.reg x).toNat / 10 ^ (2 - k) % 10 := by
  obtain ⟨-, -, rfl⟩ := exec_ldB_eq_next.1 h
  calc ((s.putBytes s.i.toNat (bcdDigits (s.reg x))).advance.byteAt (s.i.toNat + k)).toNat
      = (bcdDigits (s.reg x))[k].toNat := congrArg _ (State.byteAt_putBytes_add hk hs)
    _ = (s.reg x).toNat / 10 ^ (2 - k) % 10 := toNat_getElem_bcdDigits _ hk

/-- Settles O18: the two stops by the checks of the block store; the bytes by what Fx33 stores, what
the font region keeps and which bytes an instruction can change. -/
theorem bcdStoresThreeDigits : Obligations.BcdStoresThreeDigits := by
  refine fun x s => ⟨fun hend => ?_, fun hfont hf => ?_, fun hend hf => ?_⟩
  · have hpast : memSize < s.i.toNat + (bcdDigits (s.reg x)).length := Nat.succ_lt_succ hend
    rw [exec, execLdB, storeBlock_of_past_end hpast, andThen_fault]
  · have hlen : (bcdDigits (s.reg x)).length ≤ 16 := (by decide : 3 ≤ 16)
    rw [exec, execLdB, storeBlock_of_font hlen hfont hf, andThen_refused]
  · have h := (exec_ldB_eq_next (x := x)).2 ⟨Nat.succ_le_succ hend, hf, rfl⟩
    refine ⟨_, h, ?_, onlyDestinationsAndFlagsAreWritten _ _ _ h, fun a ha => ⟨?_, ?_, ?_⟩,
      fun a ha hf => ?_, fun a ha => ?_⟩
    · rw [State.putBytes_eq]; rfl
    · rintro rfl
      have hdigit := exec_ldB_byteAt h (k := 0) (by decide) ha
      have := (s.reg x).isLt
      rw [Nat.add_zero] at hdigit
      omega
    · rintro rfl
      exact exec_ldB_byteAt h (k := 1) (by decide) ha
    · rintro rfl
      simpa using exec_ldB_byteAt h (k := 2) (by decide) ha
    · exact exec_byteAt_font h (by simp [hf]) ha
    · by_contra hne
      rcases exec_byteAt_ne h hne with ⟨_, -, hlo, hhi⟩ | ⟨_, hins, -⟩
      · omega
      · cases hins

/-! ### The transfers of V0 to Vx (R184, R185) -/

/-- I as a number after a transfer of V0 to Vx. -/
theorem State.toNat_bumpI_i (s : State) (x : Nibble) :
    (s.bumpI x).i.toNat =
      match s.config.lsIIncrement with
      | .none => s.i.toNat
      | .xPlus1 => (s.i.toNat + x.toNat + 1) % 65536 := by
  rw [State.bumpI_i]
  cases s.config.lsIIncrement with
  | none => rfl
  | xPlus1 => simp only [BitVec.toNat_add, BitVec.toNat_ofNat, Nat.add_mod_mod, Nat.add_assoc]

/-- Settles O19, as O18, with the bytes by what Fx55 stores. -/
theorem dumpStoresRegisters : Obligations.DumpStoresRegisters := by
  refine fun x s => ⟨fun hend => ?_, fun hfont hf => ?_, fun hend hf => ?_⟩
  · have hpast : memSize < s.i.toNat + (s.regsTo x).length := by
      rw [State.length_regsTo]
      exact Nat.succ_lt_succ hend
    rw [exec, execDump, storeBlock_of_past_end hpast, andThen_fault]
  · have hlen : (s.regsTo x).length ≤ 16 := by
      rw [State.length_regsTo]
      exact x.isLt
    rw [exec, execDump, storeBlock_of_font hlen hfont hf, andThen_refused]
  · have h := (exec_dump_eq_next (x := x)).2 ⟨Nat.succ_le_succ hend, hf, rfl⟩
    refine ⟨_, h, ?_, onlyDestinationsAndFlagsAreWritten _ _ _ h, ?_,
      fun k hk hs => exec_dump_byteAt h hk hs, fun a ha hf => ?_, fun a ha => ?_⟩
    · rw [State.bumpI_eq, State.putBytes_eq]; rfl
    · rw [State.advance_i, State.putBytes_eq]
      exact State.toNat_bumpI_i _ x
    · exact exec_byteAt_font h (by simp [hf]) ha
    · by_contra hne
      rcases exec_byteAt_ne h hne with ⟨_, hins, -⟩ | ⟨_, hins, hlo, hhi⟩
      · cases hins
      · cases hins
        omega

/-- After Fx65, Vk is the byte at I + k, for each k up to x. -/
theorem exec_load_reg {x k : Nibble} {s t : State} (h : exec (.load x) s = .next t)
    (hk : k.toNat ≤ x.toNat) : t.reg k = s.byteAt (s.i.toNat + k.toNat) := by
  obtain ⟨-, rfl⟩ := exec_load_eq_next.1 h
  have hlen :
      0 + ((List.range (x.toNat + 1)).map fun j => s.byteAt (s.i.toNat + j)).length ≤ 16 := by
    rw [Nat.zero_add, List.length_map, List.length_range]
    exact x.isLt
  rw [State.reg_advance, State.bumpI_eq]
  refine (State.reg_setRegs _ _ _ _ hlen).trans ?_
  rw [if_pos (Nat.zero_le _), Nat.sub_zero, List.getElem?_map,
    List.getElem?_range (Nat.lt_succ_of_le hk), Option.map_some, Option.getD_some]

/-- Settles O20: the stop by the check of the block read, V0 to Vx by `exec_load_reg`, and the other
registers as ones that Fx65 does not write. -/
theorem loadFillsRegisters : Obligations.LoadFillsRegisters := by
  refine fun x s => ⟨fun hend => ?_, fun hend => ?_⟩
  · rw [exec, execLoad, loadBlock_of_past_end (Nat.succ_pos _) (Nat.succ_lt_succ hend),
      andThen_fault]
  · have h := (exec_load_eq_next (x := x)).2 ⟨Nat.succ_le_succ hend, rfl⟩
    refine ⟨_, h, ?_, fun a => ?_, ?_, fun k => exec_load_reg h, fun k hk => ?_⟩
    · rw [State.bumpI_eq, State.setRegs_eq]; rfl
    · rw [State.bumpI_eq, State.setRegs_eq]; rfl
    · rw [State.advance_i, State.setRegs_eq]
      exact State.toNat_bumpI_i _ x
    · exact onlyDestinationsAndFlagsAreWritten _ _ _ h k
        fun hmem => not_lt.2 (mem_regsWritten_load.1 hmem) hk

end Sys2Proof.Machine
end

section
/-! PROOFS. The keypad skips (spec/43_keypad.md R220 to R222). -/

namespace Sys2Proof.Machine

/-- A key index above 15 is refused under `KEY_INDEX_OOR = refused` (R222). -/
theorem keyIndex_of_refused {s : State} {a : Byte} (ha : a.toNat > 15)
    (h : s.config.keyIndexOor = .refused) : keyIndex s a = .refused (.keyIndexOutOfRange a) := by
  rw [keyIndex, if_neg (not_le.2 ha), h]
  rfl

/-- The key of a value's low nibble. -/
theorem State.keyDown_setWidth (s : State) {a : Byte} {k : Fin 16} (hk : a.toNat % 16 = k.val) :
    s.keyDown (a.setWidth 4) = s.keys[k] := by
  have hindex : (a.setWidth 4).toNat = k.val := (BitVec.toNat_setWidth 4 a).trans hk
  simp only [State.keyDown, hindex, Fin.getElem_fin]

/-- Settles O23: with a key index, each of the two is a skip on that key's state; without one, the
refusal of the index is the instruction's. -/
theorem keypadSkips : Obligations.KeypadSkips := by
  refine ⟨fun x s k hk hindex => ⟨⟨_, exec_skp_eq_next.2 ⟨hindex, rfl⟩, ?_⟩,
    ⟨_, exec_sknp_eq_next.2 ⟨hindex, rfl⟩, ?_⟩⟩, fun x s hx hrefused => ⟨?_, ?_⟩⟩
  · rw [s.keyDown_setWidth hk]
    exact s.skipIf_spec Iff.rfl
  · rw [s.keyDown_setWidth hk]
    exact s.skipIf_spec (Bool.not_eq_true' _).to_iff
  · rw [exec, execSkp, keyIndex_of_refused hx hrefused, andThen_refused]
  · rw [exec, execSknp, keyIndex_of_refused hx hrefused, andThen_refused]

end Sys2Proof.Machine
end

section
/-! PROOFS. The draw (spec/44_draw.md R230 to R236): the cells its sprite covers, what one draw does
to the screen and to VF, and two draws of one sprite. -/

namespace Sys2Proof.Machine

/-! ### The cells a sprite covers (R231, R232) -/

theorem State.length_spriteAt (s : State) (n : Nibble) : (s.spriteAt n).length = n.toNat := by
  rw [State.spriteAt, List.length_map, List.length_range]

theorem State.getElem?_spriteAt {s : State} {n : Nibble} {k : Nat} {b : Byte} :
    (s.spriteAt n)[k]? = some b ↔ k < n.toNat ∧ s.byteAt (s.i.toNat + k) = b := by
  simp [State.spriteAt, List.getElem?_eq_some_iff]

/-- The statement's covered cells are the cells of the bits that the blit folds over. -/
theorem spriteCovers_iff_mem {s : State} {x y n : Nibble} {c : Fin 64} {r : Fin 32} :
    SpriteCovers s x y n c r ↔
      (c, r) ∈ (spriteBits 0 (s.spriteAt n)).map (bitCell (s.reg x).toNat (s.reg y).toNat) := by
  rw [List.mem_map]
  constructor
  · rintro ⟨j, k, hj, hk, hbit, hc, hr⟩
    refine ⟨(j, k), mem_spriteBits.2 ⟨hj, k.zero_le, _, ?_, hbit⟩, ?_⟩
    · exact State.getElem?_spriteAt.2 ⟨hk, rfl⟩
    · exact Prod.ext (Fin.ext hc.symm) (Fin.ext hr.symm)
  · rintro ⟨⟨j, k⟩, hmem, hcell⟩
    obtain ⟨hj, -, b, hb, hbit⟩ := mem_spriteBits.1 hmem
    obtain ⟨hk, rfl⟩ := State.getElem?_spriteAt.1 hb
    obtain ⟨hc, hr⟩ := Prod.mk.inj hcell
    exact ⟨j, k, hj, hk, hbit, congrArg Fin.val hc.symm, congrArg Fin.val hr.symm⟩

/-- The covered cells depend on the two coordinates, I and memory alone. -/
theorem spriteCovers_congr {s t : State} {x y n : Nibble} (hx : t.reg x = s.reg x)
    (hy : t.reg y = s.reg y) (hi : t.i = s.i) (hm : MemoryKept s t) (c : Fin 64) (r : Fin 32) :
    SpriteCovers t x y n c r ↔ SpriteCovers s x y n c r := by
  simp only [SpriteCovers, hx, hy, hi, hm _]

/-! ### The collision flag (R34) -/

theorem flagByte_eq_one_iff (c : Bool) : flagByte c = 1 ↔ c = true := by cases c <;> decide

theorem flagByte_eq_zero_iff (c : Bool) : flagByte c = 0 ↔ c = false := by cases c <;> decide

/-! ### One draw (R230, R234) -/

section OneDraw

variable {x y n : Nibble} {s t : State} (h : exec (.drw x y n) s = .next t)
include h

/-- A draw writes nothing but the screen, VF and the post-execute PC. -/
theorem exec_drw_frame :
    t = { s with fb := t.fb, v := t.v, pc := s.pc + 2 } ∧ RegsKept [vF] s t ∧ MemoryKept s t := by
  obtain ⟨-, rfl⟩ := exec_drw_eq_next.1 h
  exact ⟨rfl, .of_setReg rfl, fun _ => rfl⟩

/-- The screen and VF are what the blit of the sprite at I answers, in its closed form: a sprite has
at most 15 rows, so no two of its bits meet. -/
theorem exec_drw_blit : ∃ hit : Bool, t.reg vF = flagByte hit ∧
    (hit = true ↔ ∃ c r, SpriteCovers s x y n c r ∧ pixel s.fb c r = true) ∧
    ∀ c r, (SpriteCovers s x y n c r → pixel t.fb c r = !pixel s.fb c r) ∧
      (¬SpriteCovers s x y n c r → pixel t.fb c r = pixel s.fb c r) := by
  obtain ⟨-, rfl⟩ := exec_drw_eq_next.1 h
  have hlen : (s.spriteAt n).length ≤ 32 := by
    rw [State.length_spriteAt]
    have hn : n.toNat < 16 := n.isLt
    omega
  obtain ⟨hcell, hhit⟩ := blit_spec (s.reg x).toNat (s.reg y).toNat s.fb hlen
  refine ⟨_, ?_, hhit.trans ?_, fun c r => ⟨fun hcov => ?_, fun hcov => ?_⟩⟩
  · rw [State.reg_advance, State.reg_setReg_self]
  · simp only [Prod.exists, spriteCovers_iff_mem]
  · exact (hcell c r).trans (by rw [decide_eq_true (spriteCovers_iff_mem.1 hcov), Bool.xor_true])
  · exact (hcell c r).trans
      (by rw [decide_eq_false (mt spriteCovers_iff_mem.2 hcov), Bool.xor_false])

/-- A draw inverts the covered cells. -/
theorem exec_drw_pixel_of_covers {c : Fin 64} {r : Fin 32} (hcov : SpriteCovers s x y n c r) :
    pixel t.fb c r = !pixel s.fb c r := by
  obtain ⟨-, -, -, hcell⟩ := exec_drw_blit h
  exact (hcell c r).1 hcov

/-- A draw keeps the cells its sprite does not cover. -/
theorem exec_drw_pixel_of_not_covers {c : Fin 64} {r : Fin 32}
    (hcov : ¬SpriteCovers s x y n c r) : pixel t.fb c r = pixel s.fb c r := by
  obtain ⟨-, -, -, hcell⟩ := exec_drw_blit h
  exact (hcell c r).2 hcov

/-- VF is 1 after a draw exactly when a covered cell was lit. -/
theorem exec_drw_vF_eq_one_iff :
    t.reg vF = 1 ↔ ∃ c r, SpriteCovers s x y n c r ∧ pixel s.fb c r = true := by
  obtain ⟨hit, hflag, hhit, -⟩ := exec_drw_blit h
  rw [hflag, flagByte_eq_one_iff, hhit]

/-- VF is 0 after a draw exactly when no covered cell was lit. -/
theorem exec_drw_vF_eq_zero_iff :
    t.reg vF = 0 ↔ ¬∃ c r, SpriteCovers s x y n c r ∧ pixel s.fb c r = true := by
  obtain ⟨hit, hflag, hhit, -⟩ := exec_drw_blit h
  rw [hflag, flagByte_eq_zero_iff, ← hhit, Bool.not_eq_true]

/-- A draw with neither coordinate from VF leaves the cells its sprite covers. -/
theorem exec_drw_spriteCovers (hx : x ≠ vF) (hy : y ≠ vF) (c : Fin 64) (r : Fin 32) :
    SpriteCovers t x y n c r ↔ SpriteCovers s x y n c r := by
  obtain ⟨ht, hregs, hmem⟩ := exec_drw_frame h
  have hi : t.i = s.i := by rw [ht]
  have hkept {z : Nibble} (hz : z ≠ vF) : t.reg z = s.reg z := hregs z (by simpa using hz)
  exact spriteCovers_congr (hkept hx) (hkept hy) hi hmem c r

end OneDraw

/-- Settles O24: the stop by the check of the block read; the rest by the frame of a draw, the cells
it inverts and keeps, and the two values of its flag. -/
theorem drawInvertsCoveredCells : Obligations.DrawInvertsCoveredCells := by
  refine fun x y n s => ⟨fun hn hend => ?_, fun hend => ?_⟩
  · have hpast : memSize < s.i.toNat + n.toNat := by
      unfold memSize
      omega
    rw [exec, execDrw, loadBlock_of_past_end hn hpast, andThen_fault]
  · have hfits : n.toNat = 0 ∨ s.i.toNat + n.toNat ≤ memSize := by
      unfold memSize
      omega
    have h := (exec_drw_eq_next (x := x) (y := y)).2 ⟨hfits, rfl⟩
    obtain ⟨hfields, hregs, hmem⟩ := exec_drw_frame h
    exact ⟨_, h, hfields, hregs, hmem,
      fun c r => ⟨exec_drw_pixel_of_covers h, exec_drw_pixel_of_not_covers h⟩,
      (exec_drw_vF_eq_one_iff h).2, (exec_drw_vF_eq_zero_iff h).2⟩

/-! ### Two draws of one sprite (R236) -/

/-- Settles O25: the second draw covers the cells of the first, so a covered cell is inverted twice,
and it is lit before the second draw where it was unlit before the first. -/
theorem drawTwiceRestoresTheScreen : Obligations.DrawTwiceRestoresTheScreen := by
  intro x y n s t u hx hy hst htu
  have hsame := exec_drw_spriteCovers hst hx hy
  refine ⟨fun c r => ?_, ?_⟩
  · by_cases hcov : SpriteCovers s x y n c r
    · rw [exec_drw_pixel_of_covers htu ((hsame c r).2 hcov), exec_drw_pixel_of_covers hst hcov,
        Bool.not_not]
    · rw [exec_drw_pixel_of_not_covers htu (mt (hsame c r).1 hcov),
        exec_drw_pixel_of_not_covers hst hcov]
  · rw [exec_drw_vF_eq_one_iff htu]
    refine exists₂_congr fun c r => ?_
    rw [hsame c r]
    refine and_congr_right fun hcov => ?_
    rw [exec_drw_pixel_of_covers hst hcov, Bool.not_eq_true']

end Sys2Proof.Machine
end

section
/-! PROOFS. The optional instructions, each under its parameter (spec/45_optional.md R250 to
R253). -/

namespace Sys2Proof.Machine

/-! ### A word that its parameter gives no meaning (R250) -/

section NoMeaning

variable {o : OptOutcome} (w : Word) (m : Result State)

theorem byOption_of_refused (h : o = .refused) :
    byOption o w m = .refused (.undescribedInstruction w) := by
  rw [h]
  rfl

theorem byOption_of_unsupported (h : o = .unsupported) :
    byOption o w m = .fault (.unsupportedOpcode w) := by
  rw [h]
  rfl

end NoMeaning

/-! ### 0nnn and Bnnn (R251, R252) -/

/-- Settles O26: under `standard`, the write of the post-execute PC. -/
theorem sysFollowsItsParameter : Obligations.SysFollowsItsParameter := fun _ s =>
  ⟨byOption_of_refused _ _, byOption_of_unsupported _ _,
    fun h => ⟨s.advance, exec_sys_eq_next.2 ⟨h, rfl⟩, rfl, .of_setPc ..⟩⟩

/-- An address plus a byte is at most 0x10FE, so the target of Bnnn does not wrap (R252). -/
theorem toNat_addrWord_add_byteWord (nnn : Addr) (b : Byte) :
    (addrWord nnn + byteWord b).toNat = nnn.toNat + b.toNat := by
  rw [BitVec.toNat_add, toNat_addrWord, toNat_byteWord]
  omega

/-- Settles O27: under `standard`, a write of the PC, whose sum does not wrap. -/
theorem jpV0FollowsItsParameter : Obligations.JpV0FollowsItsParameter := fun nnn s =>
  ⟨byOption_of_refused _ _, byOption_of_unsupported _ _,
    fun h => ⟨_, exec_jpV0_eq_next.2 ⟨h, rfl⟩, toNat_addrWord_add_byteWord nnn (s.reg 0),
      .of_setPc ..⟩⟩

/-! ### Fx0A (R253) -/

/-- The key vector is indexed by numbers, and the keys are named by nibbles. -/
theorem State.lowestKey_of_pressed {s : State} {k : Fin 16} (hk : s.keys[k] = true)
    (hlow : ∀ j : Fin 16, j < k → s.keys[j] = false) : s.lowestKey = some (.ofFin k) :=
  State.lowestKey_eq_some.2 ⟨hk, fun j hj => hlow j.toFin hj⟩

theorem State.lowestKey_of_none_pressed {s : State} (h : ∀ k : Fin 16, s.keys[k] = false) :
    s.lowestKey = none :=
  State.lowestKey_eq_none.2 fun k => h k.toFin

section Standard

variable {s : State} (x : Nibble) (hstd : s.config.optWaitKey = .standard)
include hstd

/-- With a key pressed, Fx0A writes the lowest one to Vx. -/
theorem exec_ldVxK_of_some {k : Nibble} (hk : s.lowestKey = some k) :
    exec (.ldVxK x) s = .next (s.setReg x (k.setWidth 8)).advance :=
  exec_ldVxK_eq_next.2 ⟨hstd, by rw [hk]⟩

/-- With no key pressed, Fx0A waits: the same word executes again in the next cycle. -/
theorem exec_ldVxK_of_none (hk : s.lowestKey = none) : exec (.ldVxK x) s = .next s :=
  exec_ldVxK_eq_next.2 ⟨hstd, by rw [hk]⟩

end Standard

/-- Settles O28: under `standard`, by whether a lowest pressed key exists; a key's number is the
value that Vx receives. -/
theorem waitKeyFollowsItsParameter : Obligations.WaitKeyFollowsItsParameter := by
  refine fun x s => ⟨byOption_of_refused _ _, byOption_of_unsupported _ _,
    fun hstd => ⟨fun k hk hlow => ?_, fun hnone => ?_⟩⟩
  · have hexec := exec_ldVxK_of_some x hstd (State.lowestKey_of_pressed hk hlow)
    refine ⟨_, hexec, ?_, .of_setReg ..⟩
    rw [State.reg_advance, State.reg_setReg_self]
    exact BitVec.toNat_setWidth_of_le (by decide)
  · exact exec_ldVxK_of_none x hstd (State.lowestKey_of_none_pressed hnone)

end Sys2Proof.Machine
end

section
/-! PROOFS. Errors, refusals, the timers and the outputs (spec/60_exceptions.md R270 to R292):
what a call's error leaves, the refusal mark, the nesting of CALLs, ticks, and the random byte. -/

namespace Sys2Proof.Machine

/-! ### The nesting of CALLs (R272) -/

/-- As many CALLs as there are free slots complete, each with one frame more. -/
theorem callAll_of_free {as : List Addr} {s : State} (h : s.sp.val + as.length ≤ 16) :
    ∃ t, callAll as s = .next t ∧ t.sp.val = s.sp.val + as.length := by
  induction as generalizing s with
  | nil => exact ⟨s, rfl, rfl⟩
  | cons a as ih =>
    rw [List.length_cons] at h ⊢
    obtain ⟨u, hcall, -, hsp, -⟩ :=
      callPushesTheReturnAddress.1 a s ⟨s.sp.val, by omega⟩ rfl
    replace hsp : u.sp.val = s.sp.val + 1 := hsp
    obtain ⟨t, hcalls, htsp⟩ := ih (s := u) (by omega)
    exact ⟨t, by rw [callAll, hcall, andThen_next, hcalls], by omega⟩

/-- Settles O7: 16 slots are free where no frame is active, and the 17th CALL finds none. -/
theorem sixteenCallsNestAndNoMore : Obligations.SixteenCallsNestAndNoMore := by
  intro as s hlen hsp
  obtain ⟨t, hcalls, ht⟩ := callAll_of_free (as := as) (s := s) (by omega)
  have hfull : t.sp.val = 16 := by omega
  exact ⟨t, hcalls, hfull, fun nnn => callPushesTheReturnAddress.2 nnn t hfull⟩

/-! ### Errors (R274, R281) -/

/-- No step ends in an error: a refused call and a settled one do not. -/
theorem step_ne_fault (s : State) (e : Fault) : step s ≠ .fault e := by
  cases hmark : s.refusal with
  | none => exact (step_of_unmarked hmark rfl).trans_ne (settle_ne_fault _ _ e)
  | some r => rw [step_of_marked hmark]; nofun

/-- No part of a cycle that completes writes the result, so the `Ok` it begins with stays. -/
theorem runCycle_result {s t : State} (h : runCycle s = .next t) : t.result = s.result := by
  obtain ⟨w, ins, -, -, hexec⟩ := runCycle_eq_next.1 h
  obtain ⟨-, -, -, -, -, -, hresult, -⟩ := exec_env hexec
  exact hresult

/-- Where a call's own part answers `Ok` whenever it completes, an error after the step was taken in
the state that part started from. -/
theorem eq_takeError_of_step {s v t : State} {c : HostCall} {e : Fault} (hstep : step s = .next t)
    (htake : takeCall s = (c, v)) (herr : t.result = .err e)
    (hok : attempt c (beginCall c v) = .next t → t.result = .ok) :
    t = (beginCall c v).takeError e := by
  rw [step_of_unmarked (refusal_of_step hstep) htake, settle_eq_next] at hstep
  obtain hnext | ⟨e', -, rfl⟩ := hstep
  · cases herr.symm.trans (hok hnext)
  · rw [CallResult.err.inj herr]

/-- Settles O34: neither a cycle nor a load that completes answers with an error. -/
theorem errorsAreReturnedAndTheMachineGoesOn :
    Obligations.ErrorsAreReturnedAndTheMachineGoesOn := by
  refine ⟨step_ne_fault, fun s v t keys rnd e htake hstep herr => ?_,
    fun s t bytes rest e hhost hstep herr => ?_⟩
  · exact eq_takeError_of_step hstep htake herr runCycle_result
  · refine eq_takeError_of_step hstep (takeCall_of_cons hhost) herr fun hload => ?_
    obtain ⟨-, -, rfl⟩ := loadImage_eq_next.1 hload
    rfl

/-! ### The refusal mark (R276) -/

/-- A refused call leaves its reason as the mark. -/
theorem stateAfter_refusal_of_refused {s : State} {r : Refusal} (h : step s = .refused r) :
    (stateAfter s).refusal = some r := by
  rw [stateAfter, h]
  rfl

theorem runEnd_of_marked {s : State} {r : Refusal} (h : s.refusal = some r) : runEnd s = none :=
  if_pos (by simp [h])

/-- A step is made without the mark, and one that has a next state does not set it. -/
theorem step_refusal {s t : State} (h : step s = .next t) : t.refusal = none := by
  have hmark := refusal_of_step h
  rcases step_writers h with ⟨u, ins, hrun, hexec⟩ | ⟨ht, -⟩
  · obtain ⟨-, -, -, -, -, -, -, hkept⟩ := exec_env hexec
    rw [hkept, hrun.kept.1, hmark]
  · rw [ht, hmark]

/-- Settles O35: a marked state's step is refused for its reason, which `stateAfter` marks again. -/
theorem theRefusalMarkIsNeverCleared : Obligations.TheRefusalMarkIsNeverCleared := by
  refine ⟨fun _ _ => stateAfter_refusal_of_refused, fun s r hmark => ?_, fun _ _ => step_refusal⟩
  have hstep := step_of_marked hmark
  exact ⟨hstep, stateAfter_refusal_of_refused hstep, runEnd_of_marked hmark⟩

/-! ### The timers (R284, R285) -/

theorem toNat_countDown (b : Byte) : (countDown b).toNat = b.toNat - 1 := by
  by_cases hb : b = 0
  · rw [hb]
    rfl
  · rw [countDown, if_pos hb]
    bv_omega

theorem toNat_countDownBy (k : Nat) (b : Byte) : (countDownBy k b).toNat = b.toNat - k := by
  rw [countDownBy, BitVec.toNat_ofNat]
  omega

theorem countDownBy_zero (b : Byte) : countDownBy 0 b = b :=
  BitVec.eq_of_toNat_eq (toNat_countDownBy 0 b)

theorem countDownBy_succ (k : Nat) (b : Byte) :
    countDownBy (k + 1) b = countDown (countDownBy k b) := by
  apply BitVec.eq_of_toNat_eq
  rw [toNat_countDown, toNat_countDownBy, toNat_countDownBy, Nat.sub_add_eq]

theorem State.ticks_zero (s : State) : s.ticks 0 = s := by
  rw [State.ticks, countDownBy_zero, countDownBy_zero]
  rfl

theorem State.ticks_succ (s : State) (k : Nat) : s.ticks (k + 1) = (s.ticks k).tick := by
  rw [State.ticks, countDownBy_succ, countDownBy_succ]
  rfl

/-- Settles O37, by induction on the number of ticks. -/
theorem freeTicksAreTicks : Obligations.FreeTicksAreTicks := by
  intro s k
  induction k with
  | zero => exact s.ticks_zero
  | succ k ih => rw [State.ticks_succ, ih, Function.iterate_succ_apply']

/-- Settles O36: the tick's own part completes, and each timer counts down. -/
theorem tickCountsBothTimersDown : Obligations.TickCountsBothTimersDown :=
  fun s _ hmark hhost => ⟨_, step_of_unmarked hmark (takeCall_of_cons hhost),
    toNat_countDown s.dt, toNat_countDown s.st, rfl⟩

/-! ### The outputs (R286, R290) -/

theorem State.soundActive_iff (s : State) : s.soundActive = true ↔ s.st.toNat ≠ 0 := by
  rw [State.soundActive, bne_iff_ne, ne_eq, ← BitVec.toNat_inj]
  rfl

/-- Settles O38: the own part of either read completes in the state it started from. -/
theorem outputsHaveNoSideEffect : Obligations.OutputsHaveNoSideEffect := by
  refine ⟨fun s => ⟨s.soundActive_iff, rfl⟩, fun s rest hmark hhost => ?_⟩
  obtain hhost | hhost := hhost <;> exact step_of_unmarked hmark (takeCall_of_cons hhost)

/-! ### The random byte (R292) -/

/-- Sequences go on alike where the parts after the first agree on what it answers. -/
theorem andThen_congr {α β : Type} {o : Result α} {f g : α → Result β}
    (h : ∀ a, o = .next a → f a = g a) : andThen o f = andThen o g := by
  cases o with
  | next a => exact h a rfl
  | fault e => rfl
  | refused r => rfl

/-- Settles O59, by `exec_setInputs` with the keypad vector kept, which no instruction writes. -/
theorem onlyRndReadsTheRandomByte : Obligations.OnlyRndReadsTheRandomByte := by
  intro ins s b hins
  refine (exec_setInputs s s.keys b ins (.inl rfl) (.inr hins)).trans (andThen_congr ?_)
  intro t hexec
  obtain ⟨-, hkeys, -⟩ := exec_env hexec
  rw [State.setInputs, ← hkeys]

end Sys2Proof.Machine
end

section
/-! PROOFS. Image loads and the boot order (spec/70_reset_and_hazards.md R312 to R315): what a load
answers in each case, and how far a call takes the boot order. -/

namespace Sys2Proof.Machine

/-! ### Image loads (R312, R313) -/

theorem loadImage_of_tooLong {s : State} {bytes : List Byte} (hfresh : s.boot = .fresh)
    (hlong : bytes.length > maxImage) : loadImage s bytes = .fault .imageTooLarge := by
  rw [loadImage, if_neg (not_not.2 hfresh), if_pos hlong]
  rfl

theorem loadImage_of_late {s : State} (bytes : List Byte) (hlate : s.boot ≠ .fresh) :
    loadImage s bytes = .refused .loadNotAtStart :=
  if_pos hlate

/-- Each byte of the block placed at `a` is where its index says. -/
theorem State.byteAt_setBytes_add {s : State} {a k : Nat} {bs : List Byte} {b : Byte}
    (hb : bs[k]? = some b) : (s.setBytes a bs).byteAt (a + k) = b := by
  rw [State.byteAt_setBytes, if_pos (Nat.le_add_right a k), Nat.add_sub_cancel_left, hb,
    Option.getD_some]

theorem State.byteAt_setBytes_outside (s : State) {a c : Nat} {bs : List Byte}
    (hout : c < a ∨ a + bs.length ≤ c) : (s.setBytes a bs).byteAt c = s.byteAt c := by
  by_contra hne
  have hin := State.mem_block_of_byteAt_setBytes_ne hne
  omega

/-- A load settles in the state without it on the schedule: no inputs are put in place before it. -/
theorem step_of_load {s : State} {bytes : List Byte} {rest : List HostCall} {o : Result State}
    (hmark : s.refusal = none) (hhost : s.host = .loadImage bytes :: rest)
    (hload : loadImage { s with host := rest } bytes = o) :
    step s = settle { s with host := rest } o := by
  rw [← hload]
  exact step_of_unmarked hmark (takeCall_of_cons hhost)

/-- Settles O39: the three answers of `loadImage`, settled; the bytes are those of `setBytes`. -/
theorem loadImageFillsMemoryOnce : Obligations.LoadImageFillsMemoryOnce := by
  intro s bytes rest hmark hhost
  refine ⟨fun hfresh hfits => ?_, fun hfresh hlong => ?_, fun hlate _ => ?_⟩
  · refine ⟨_, step_of_load hmark hhost (loadImage_eq_next.2 ⟨hfresh, hfits, rfl⟩), ?_,
      fun _ _ => State.byteAt_setBytes_add,
      fun _ => State.byteAt_setBytes_outside { s with host := rest }⟩
    rw [State.setBytes_eq]
    rfl
  · have hload := loadImage_of_tooLong (s := { s with host := rest }) hfresh hlong
    exact step_of_load hmark hhost hload
  · have hload := loadImage_of_late (s := { s with host := rest }) bytes hlate
    exact step_of_load hmark hhost hload

/-! ### The boot order (R314, R315) -/

/-- Of the calls' own parts, a load alone moves the boot order, and only from its start. -/
theorem attempt_boot {c : HostCall} {s t : State} (h : attempt c s = .next t) :
    t.boot = s.boot ∨ s.boot = .fresh ∧ t.boot = .loaded := by
  cases c with
  | cycle keys rnd =>
    obtain ⟨w, ins, -, -, hexec⟩ := runCycle_eq_next.1 h
    obtain ⟨-, -, -, hboot, -⟩ := exec_env hexec
    exact .inl hboot
  | loadImage bytes =>
    obtain ⟨hfresh, -, rfl⟩ := loadImage_eq_next.1 h
    exact .inr ⟨hfresh, rfl⟩
  | tick => cases h; exact .inl rfl
  | readFramebuffer => cases h; exact .inl rfl
  | soundActive => cases h; exact .inl rfl

/-- A taken error leaves the boot order as the call's own part found it. -/
theorem step_boot {s v t : State} {c : HostCall} (h : step s = .next t)
    (htake : takeCall s = (c, v)) :
    t.boot = (beginCall c v).boot ∨ (beginCall c v).boot = .fresh ∧ t.boot = .loaded := by
  rw [step_of_unmarked (refusal_of_step h) htake, settle_eq_next] at h
  obtain hnext | ⟨e, -, rfl⟩ := h
  · exact attempt_boot hnext
  · exact .inl rfl

/-- The moves of the boot order: it stays, a cycle sets it to `running`, or a load at the start
sets it to `loaded`. -/
theorem step_boot_cases {s t : State} (h : step s = .next t) :
    t.boot = s.boot ∨ t.boot = .running ∨ s.boot = .fresh ∧ t.boot = .loaded := by
  obtain ⟨-, hbegin⟩ := beginCall_kept (s := s) rfl
  obtain hstay | ⟨hfresh, hloaded⟩ := step_boot h rfl
  · rw [hstay]
    exact hbegin.imp_right .inl
  · obtain hbegin | hbegin := hbegin
    · exact .inr (.inr ⟨hbegin.symm.trans hfresh, hloaded⟩)
    · cases hbegin.symm.trans hfresh

/-- A cycle's own part starts at `running`, which is not where a load starts. -/
theorem step_boot_of_cycle {s v t : State} {keys : Keys} {rnd : Byte} (h : step s = .next t)
    (htake : takeCall s = (.cycle keys rnd, v)) : t.boot = .running := by
  obtain hstay | ⟨hfresh, -⟩ := step_boot h htake
  · exact hstay
  · cases hfresh

/-- Settles O40: no move of the boot order goes back. -/
theorem bootOrderNeverGoesBack : Obligations.BootOrderNeverGoesBack := by
  refine fun s t h => ⟨fun hpast => ?_, fun hrunning => ?_, fun v keys rnd => step_boot_of_cycle h⟩
  · obtain hstay | hrun | ⟨-, hloaded⟩ := step_boot_cases h
    · rwa [hstay]
    · rw [hrun]; nofun
    · rw [hloaded]; nofun
  · obtain hstay | hrun | ⟨hfresh, -⟩ := step_boot_cases h
    · rw [hstay, hrunning]
    · exact hrun
    · cases hrunning.symm.trans hfresh

end Sys2Proof.Machine
end
